-- ==== Sys2Proof/Word.lean ====
section
/-!
DEFINITION. The word types of the vevor-pwm codec core. The width of a duration, `DUR_W`, and of a time,
`TS_W`, are parameters of an instance (00_scope.md R3, R4), so durations and times are natural numbers
of microseconds and the widths are data: `Config.durW` and `Config.tsW`. Nothing here has an effect.
-/

namespace Sys2Proof

/-- A byte: the value the encoder takes (42_encoder.md R170) and the data of a byte result. -/
abbrev Byte := BitVec 8

/-- The 16-bit accumulator and the data of a word result (10_state.md R24). -/
abbrev Word16 := BitVec 16

/-- The number of accumulated bits, 5 bits (10_state.md R25). -/
abbrev BitCount := BitVec 5

/-- The bits of a record word: `2 * (1 + DUR_W)` (30_encoding.md R70). -/
abbrev recBits (durW : Nat) : Nat := 2 * (1 + durW)

/-- The bits of an operation word below the selector: 34 at `DUR_W = 16` (30_encoding.md R72); at another
width what the record word and the 8-bit value of ENCODE need (assumption 4). -/
def payloadBits (durW : Nat) : Nat := max (recBits durW) 8

/-- The bits of an operation word: 36 at `DUR_W = 16` (30_encoding.md R72). -/
abbrev opBits (durW : Nat) : Nat := 2 + payloadBits durW

/-- A record word `{l0, d0, l1, d1}` (30_encoding.md R70). -/
abbrev RecWord (durW : Nat) := BitVec (recBits durW)

/-- An operation word (30_encoding.md R72). -/
abbrev OpWord (durW : Nat) := BitVec (opBits durW)

end Sys2Proof
end

