-- ==== Sys2Proof/Config.lean ====
section
/-!
DEFINITION. The elaboration-time parameters of an instance (00_scope.md section 4, R5;
40_classifier.md R100) and the one free value of the model. The default values stand in
`Sys2Proof/Machine/Timing.lean`.
-/

namespace Sys2Proof

/-- The widths (00_scope.md R3, R4), the named timing constants (40_classifier.md R100) and the two options
(R5) of one instance. They are fixed for the life of the instance (10_state.md R29). That the constants fit in the
two widths is constraint (a) of R101; no rule of the machine assumes it. -/
structure Config where
  /-- `DUR_W`: the bits of a duration (00_scope.md R3). -/
  durW : Nat
  /-- `TS_W`: the bits of the time base (00_scope.md R4). -/
  tsW : Nat
  /-- `PRE_MIN`: exclusive lower bound of the preamble window. -/
  preMin : Nat
  /-- `PRE_MAX`: exclusive upper bound of the preamble window. -/
  preMax : Nat
  /-- `START_MIN`: exclusive lower bound of the start window. -/
  startMin : Nat
  /-- `START_MAX`: exclusive upper bound of the start window. -/
  startMax : Nat
  /-- `BIT_THRESHOLD`: a low half below it is bit 1, else bit 0. -/
  bitThreshold : Nat
  /-- `BIT_PERIOD`: the length of a bit record the encoder sends. -/
  bitPeriod : Nat
  /-- `BIT1_LOW`: the low duration the encoder sends for a 1 bit. -/
  bit1Low : Nat
  /-- `BIT0_LOW`: the low duration the encoder sends for a 0 bit. -/
  bit0Low : Nat
  /-- `SYNC1`: both durations of the first synchronization record. -/
  sync1 : Nat
  /-- `SYNC2`: both durations of the second synchronization record. -/
  sync2 : Nat
  /-- `IDLE_WINDOW`: a later difference than this ends a transaction. -/
  idleWindow : Nat
  /-- `PRE_FALLTHROUGH` (R5). -/
  preFallthrough : Bool
  /-- `START_FALLTHROUGH` (R5). -/
  startFallthrough : Bool
deriving DecidableEq, Repr

/-- FREE VALUE (assumption 6, DESIGN CHOICE): the duration the encoder sends where the exact one is no
number of `DUR_W` bits, as a function of the parameters and of the exact one. 42_encoder.md R171 sends
`BIT_PERIOD - low`, "an ordinary subtraction" that "cannot go below 0" under 40_classifier.md R101 (b), and
the constants, which fit under R101 (a); the spec gives no value outside R101. No default configuration
reaches it. -/
opaque Config.unstatedDuration : Config → Int → Nat

end Sys2Proof
end

