-- ==== Sys2Proof/Machine/Timing.lean ====
section
/-!
DEFINITION. The default values of the parameters (40_classifier.md R100, 00_scope.md R5 and the table of
00_scope.md section 4).
-/

namespace Sys2Proof.Machine

/-- The defaults: the widths 16 and 32 (00_scope.md R3, R4), the timing constants of 40_classifier.md R100
and both options `false` (R5). The spec carries the numbers as its source states them, unaudited (93_implementation_defined.md
I1). -/
def defaultConfig : Config :=
  { durW := 16, tsW := 32,
    preMin := 800, preMax := 3000,
    startMin := 28000, startMax := 32000,
    bitThreshold := 6000,
    bitPeriod := 12100, bit1Low := 4000, bit0Low := 8000,
    sync1 := 10000, sync2 := 5000,
    idleWindow := 80000,
    preFallthrough := false, startFallthrough := false }

end Sys2Proof.Machine
end

