-- ==== Sys2Proof/Syntax.lean ====
section
/-!
DEFINITION. The syntax: levels, halves and pulse records (00_scope.md R7), and the three input
operations, one constructor for each row of spec/opcode_table.json (30_encoding.md R72).
-/

namespace Sys2Proof

/-- A level: `H` or `L` (00_scope.md R7). -/
inductive Level where
  /-- `L`, encoded 0. -/
  | low
  /-- `H`, encoded 1. -/
  | high
deriving DecidableEq, Repr

/-- One half `(level, duration)` of a pulse record (00_scope.md R7). -/
structure Half where
  level : Level
  dur : Nat
deriving DecidableEq, Repr

/-- A pulse record: half 0 is earlier on the wire than half 1 (00_scope.md R7, 20_memory.md R53). -/
structure Record where
  half0 : Half
  half1 : Half
deriving DecidableEq, Repr

/-- The input operations (30_encoding.md R72). The time sample `now` of a PULSE accompanies the word
and is not part of it (R78): the machine's state holds it. -/
inductive Instr where
  /-- `PULSE`: one pulse record (41_decoder.md R120). -/
  | pulse (r : Record)
  /-- `ENCODE`: one 8-bit value (42_encoder.md R170). -/
  | encode (v : Byte)
  /-- `RESET` (70_reset_and_hazards.md R230). -/
  | reset
deriving DecidableEq, Repr

end Sys2Proof
end

