-- ==== Sys2Proof/WellFormed.lean ====
section
/-!
DEFINITION. Well-formedness: of an instruction (its operands have their widths), of an operation word (the
match and mask columns of spec/opcode_table.json; everything else is reserved, 30_encoding.md R76) and of a
configuration (the constraints of 40_classifier.md R101).
-/

namespace Sys2Proof

/-- Both durations of the record have `DUR_W` bits (00_scope.md R3, R7). -/
def Record.wellFormed (durW : Nat) (r : Record) : Bool :=
  decide (r.half0.dur < 2 ^ durW) && decide (r.half1.dur < 2 ^ durW)

/-- The operands have their widths. Every operand of its width is admitted: PULSE takes every record
(30_encoding.md R71, 41_decoder.md R120), ENCODE every 8-bit value (42_encoder.md R170), RESET has none
(70_reset_and_hazards.md R230). -/
def Instr.wellFormed (durW : Nat) : Instr → Bool
  | .pulse r => r.wellFormed durW
  | .encode _ => true
  | .reset => true

/-- One row of spec/opcode_table.json: its mnemonic, its mask and its match pattern. -/
structure OpRow where
  mnemonic : String
  mask : BitVec 36
  pattern : BitVec 36
deriving DecidableEq, Repr

/-- spec/opcode_table.json, its "mask" and "match" columns. -/
def opcodeTable : List OpRow :=
  [ { mnemonic := "PULSE", mask := 0xC00000000#36, pattern := 0x000000000#36 },
    { mnemonic := "ENCODE", mask := 0xFFFFFFF00#36, pattern := 0x400000000#36 },
    { mnemonic := "RESET", mask := 0xFFFFFFFFF#36, pattern := 0x800000000#36 } ]

/-- A word belongs to a row when its masked bits are the row's pattern. -/
def OpRow.admits (row : OpRow) (w : BitVec 36) : Bool := w &&& row.mask == row.pattern

/-- A 36-bit word is legal when a row of the table admits it; the other words are the reserved space of
30_encoding.md R76. -/
def legalWord (w : BitVec 36) : Bool := opcodeTable.any (·.admits w)

/-- 40_classifier.md R101 (b): `BIT1_LOW < BIT_THRESHOLD <= BIT0_LOW <= BIT_PERIOD`. -/
def Config.bitsOrdered (c : Config) : Bool :=
  decide (c.bit1Low < c.bitThreshold) && decide (c.bitThreshold ≤ c.bit0Low) &&
    decide (c.bit0Low ≤ c.bitPeriod)

/-- 40_classifier.md R101 (d): `START_MIN < 2*SYNC1 + 2*SYNC2 < START_MAX`, on the integers. -/
def Config.syncIsStart (c : Config) : Bool :=
  decide (c.startMin < 2 * c.sync1 + 2 * c.sync2) &&
    decide (2 * c.sync1 + 2 * c.sync2 < c.startMax)

/-- 40_classifier.md R101 (e): neither `BIT_PERIOD - BIT1_LOW` nor `BIT_PERIOD - BIT0_LOW` lies strictly
inside the start window, on the integers. -/
def Config.bitsAreNotStarts (c : Config) : Bool :=
  [c.bit1Low, c.bit0Low].all fun low =>
    !(decide (c.startMin + low < c.bitPeriod) && decide (c.bitPeriod < c.startMax + low))

/-- 40_classifier.md R101 (a): every duration constant is below `2^DUR_W` and `IDLE_WINDOW` below
`2^TS_W`. -/
def Config.constantsFit (c : Config) : Bool :=
  [c.preMin, c.preMax, c.startMin, c.startMax, c.bitThreshold, c.bitPeriod, c.bit1Low, c.bit0Low,
    c.sync1, c.sync2].all (fun d => decide (d < 2 ^ c.durW)) && decide (c.idleWindow < 2 ^ c.tsW)

/-- The constraints of 40_classifier.md R101 that the derived properties need. No rule of the machine
assumes them: every operation is defined for every configuration. (c) holds for every value of the
constants. -/
def Config.wellFormed (c : Config) : Bool :=
  c.constantsFit && c.bitsOrdered && c.syncIsStart && c.bitsAreNotStarts

end Sys2Proof
end

