-- ==== Sys2Proof/Decode.lean ====
section
/-!
DEFINITION. The decoder of operation words (36 bits at `DUR_W = 16`), total on any bits (30_encoding.md
R70 to R77), and the encoder beside it.
-/

namespace Sys2Proof

/-- `H` is bit value 1, `L` is 0 (00_scope.md R7). -/
def levelOfBit (b : Bool) : Level := if b then .high else .low

/-- The bit of a level (00_scope.md R7). -/
def bitOfLevel : Level → BitVec 1
  | .low => 0#1
  | .high => 1#1

/-- The operands of a record word: `l0 = rec[33]`, `d0 = rec[32:17]`, `l1 = rec[16]`,
`d1 = rec[15:0]` at `DUR_W = 16` (30_encoding.md R70, R71). -/
def recordOfWord (durW : Nat) (w : RecWord durW) : Record :=
  { half0 := { level := levelOfBit (w.getLsbD (2 * durW + 1)), dur := (w.extractLsb' (durW + 1) durW).toNat },
    half1 := { level := levelOfBit (w.getLsbD durW), dur := (w.extractLsb' 0 durW).toNat } }

/-- A half as its level bit and its duration. -/
def wordOfHalf (durW : Nat) (h : Half) : BitVec (1 + durW) := bitOfLevel h.level ++ BitVec.ofNat durW h.dur

/-- The record word `{l0, d0, l1, d1}` (30_encoding.md R70). -/
def wordOfRecord (durW : Nat) (r : Record) : RecWord durW :=
  (wordOfHalf durW r.half0 ++ wordOfHalf durW r.half1).cast (Nat.two_mul (1 + durW)).symm

/-- The decode table of 30_encoding.md R77: the selector, `ow[35:34]` at `DUR_W = 16`, names the port;
`none` is the table's REFUSED (the reserved space of R76). Above the record word a PULSE word has bits only
where `DUR_W < 3` (assumption 4). -/
def decode (durW : Nat) (w : OpWord durW) : Option Instr :=
  let selector := w.extractLsb' (payloadBits durW) 2
  if selector = 0#2 then
    if w.extractLsb' (recBits durW) (payloadBits durW - recBits durW) = 0 then
      some (.pulse (recordOfWord durW (w.extractLsb' 0 (recBits durW))))
    else none
  else if selector = 1#2 then
    if w.extractLsb' 8 (payloadBits durW - 8) = 0 then some (.encode (w.extractLsb' 0 8)) else none
  else if selector = 2#2 then
    if w.extractLsb' 0 (payloadBits durW) = 0 then some .reset else none
  else none

/-- The operation word of an instruction (30_encoding.md R72). -/
def encode (durW : Nat) : Instr → OpWord durW
  | .pulse r => 0#2 ++ (wordOfRecord durW r).setWidth (payloadBits durW)
  | .encode v => 1#2 ++ v.setWidth (payloadBits durW)
  | .reset => 2#2 ++ 0#(payloadBits durW)

/-- The instruction in an operation word given as a number, of which the word has the low bits: 36 at
`DUR_W = 16` (30_encoding.md R79; assumption 11). -/
def decodeNumber (durW n : Nat) : Option Instr := decode durW (BitVec.ofNat (opBits durW) n)

/-- The number of an operation word that spec/opcode_table.json numbers the bits of: its bits below
`nbits`. -/
def tableWord (nbits w : Nat) : Nat := w % 2 ^ nbits

/-- The instruction the decoder reads from an opcode-table word, at the default width of a duration;
`none` where the word is reserved. -/
def decodeTableWord (nbits w : Nat) : Option Instr :=
  decodeNumber Machine.defaultConfig.durW (tableWord nbits w)

end Sys2Proof
end

