-- ==== Sys2Proof/Machine/State.lean ====
section
/-!
DEFINITION. The state, as plain data: the decoder's session state (10_state.md R22 to R28), what the
ports hold between steps (30_encoding.md R80 to R83), the parameters, and the model's own record of the
environment (what it will present, and what it has received).
-/

namespace Sys2Proof.Machine

/-- The decoder's control state (10_state.md R22). -/
inductive Control where
  /-- `SEEKING_START`, encoded 0. -/
  | seekingStart
  /-- `COLLECTING_BITS`, encoded 1. -/
  | collectingBits
deriving DecidableEq, Repr

/-- The width of the frame being collected, `s.expected_bits`, one of 8 and 16 (10_state.md R23). -/
inductive FrameWidth where
  /-- 8 bits, a byte frame (`exp16 = 0`). -/
  | bits8
  /-- 16 bits, a word frame (`exp16 = 1`). -/
  | bits16
deriving DecidableEq, Repr

/-- A decoded value, tagged by its kind (41_decoder.md R134). -/
inductive Result where
  /-- `Byte(b)`. -/
  | byte (b : Byte)
  /-- `Word(w)`. -/
  | word (w : Word16)
deriving DecidableEq, Repr

/-- The decoder's session state: the fixed set of named fields of 10_state.md R22 to R28. -/
structure Decoder where
  /-- `s.state` (R22). -/
  control : Control
  /-- `s.expected_bits` (R23). -/
  expectedBits : FrameWidth
  /-- `s.value`, the bit accumulator (R24). -/
  value : Word16
  /-- `s.bit_count` (R25). -/
  bitCount : BitCount
  /-- `s.saw_preamble` (R26). -/
  sawPreamble : Bool
  /-- `s.got_byte` (R27). -/
  gotByte : Bool
  /-- `s.got_word` (R27). -/
  gotWord : Bool
  /-- `s.last_activity` (R28). -/
  lastActivity : Nat
deriving DecidableEq, Repr

/-- The reset values of 10_state.md R32. -/
def Decoder.reset : Decoder :=
  { control := .seekingStart, expectedBits := .bits8, value := 0#16, bitCount := 0#5,
    sawPreamble := false, gotByte := false, gotWord := false, lastActivity := 0 }

/-- One operation the environment presents: its operation word (30_encoding.md R72) and, for a PULSE,
the time sample `pin_now` and the mark `pin_last` that accompany it (R78, R80). For the other operations
nothing reads the last two. Word and time are numbers, of which a port has its own number of bits. -/
structure Offer where
  word : Nat
  now : Nat
  last : Bool
deriving DecidableEq, Repr

/-- Which agent moves in a step (60_exceptions.md R211; assumption 2). -/
inductive Turn where
  /-- The oldest waiting operation is presented at its port. -/
  | operation
  /-- The result consumer asserts `res_ready` (30_encoding.md R82). -/
  | consumer
  /-- The pulse sink asserts `tx_ready` (30_encoding.md R81). -/
  | sink
  /-- The environment asserts `rst` (30_encoding.md R83). -/
  | rst
deriving DecidableEq, Repr

/-- The whole state. No field is a function; two states can be compared and written out. -/
structure State where
  /-- The instance's parameters (10_state.md R29; assumption 5): no step writes them. -/
  config : Config
  /-- The decoder's session state (10_state.md R20). -/
  dec : Decoder
  /-- The result presented and not yet taken (30_encoding.md R82): `res_valid` is 1 when there is one. -/
  resPending : Option Result
  /-- The sequence offered and not yet taken (30_encoding.md R81): `tx_valid` is 1 when there is one. -/
  txPending : Option (List Record)
  /-- A batch is in progress: a record of it was transferred, its last one not yet (30_encoding.md R80,
  70_reset_and_hazards.md R230; assumption 8). -/
  batchOpen : Bool
  /-- The input signal `pin_now` (30_encoding.md R80). -/
  pinNow : Nat
  /-- The input signal `pin_last` (30_encoding.md R80). -/
  pinLast : Bool
  /-- The model's own: the operations the environment has waiting, in the order the ports accept them. -/
  ops : List Offer
  /-- The model's own: which agent moves in the next steps. -/
  turns : List Turn
  /-- The model's own trace: the results the consumer has taken, oldest first (10_state.md R30). -/
  results : List Result
  /-- The model's own trace: the sequences the sink has taken, oldest first (10_state.md R30). -/
  sequences : List (List Record)
  /-- The model's own trace: how often `pin_release` has pulsed (30_encoding.md R80). -/
  releases : Nat
deriving DecidableEq, Repr

/-- The reasons the machine stops with a fault: none. "No operation of the block raises an exception,
faults, stops or hangs on any input" (60_exceptions.md R200), so the type has no constructor. -/
inductive Fault where
deriving DecidableEq, Repr

/-- The reasons a step gives no meaning. -/
inductive Refusal where
  /-- Raised by an arm of `exec` for an instruction that has no meaning yet; no arm raises it. Safe: the
  run stops with its name. -/
  | notModelled (mnemonic : String)
  /-- Raised by `step` when the operation word presented is in the reserved space (30_encoding.md R76,
  R77). Safe: no hardware port can carry such a word. -/
  | reservedEncoding (w : Nat)
deriving DecidableEq, Repr

/-- The machine right after reset (10_state.md R32, 70_reset_and_hazards.md R231): the decoder at its
reset values, nothing held at a port, the default parameters, and an environment that has presented and
received nothing (assumptions 1, 2, 3). -/
def State.reset : State :=
  { config := defaultConfig, dec := Decoder.reset, resPending := none, txPending := none,
    batchOpen := false, pinNow := 0, pinLast := false, ops := [], turns := [],
    results := [], sequences := [], releases := 0 }

end Sys2Proof.Machine
end

