-- ==== Sys2Proof/Machine/Flags.lean ====
section
/-!
DEFINITION. The decoder's flags: the idle check (41_decoder.md R122), the preamble flag (R124) and the
emission decision with the duplicate-suppression flags (R131 to R133).
-/

namespace Sys2Proof.Machine

/-- `(now - last) mod 2^TS_W` (41_decoder.md R122, 00_scope.md R4), on the integers. -/
def elapsed (c : Config) (now last : Nat) : Nat :=
  (((now : Int) - last) % ((2 ^ c.tsW : Nat) : Int)).toNat

/-- The difference of the idle check exceeds the idle window: a boundary step (41_decoder.md R122,
R137). The subtraction is modulo `2^TS_W` and the comparison strict (90_conflicts.md C1). -/
def isBoundary (c : Config) (now : Nat) (d : Decoder) : Bool :=
  decide (c.idleWindow < elapsed c now d.lastActivity)

/-- The idle check clears both duplicate-suppression flags and changes nothing else (R122). -/
def idleCheck (c : Config) (now : Nat) (d : Decoder) : Decoder :=
  if isBoundary c now d then { d with gotByte := false, gotWord := false } else d

/-- The preamble rule's write (R124). -/
def setPreamble (d : Decoder) : Decoder := { d with sawPreamble := true }

/-- The emission decision at a completion: a byte once, then a word once, per transaction, and the flag
set with it (R131, R132); in the cases of R133 nothing. -/
def emission (d : Decoder) : Decoder × Option Result :=
  match d.expectedBits with
  | .bits8 =>
    if d.gotByte then (d, none)
    else ({ d with gotByte := true }, some (.byte (d.value.extractLsb' 0 8)))
  | .bits16 =>
    if d.gotByte && !d.gotWord then ({ d with gotWord := true }, some (.word d.value))
    else (d, none)

end Sys2Proof.Machine
end

