-- ==== Sys2Proof/Machine/Operands.lean ====
section
/-!
DEFINITION. The timing-window classifier (40_classifier.md R102 to R107): every way the decoder reads a
pulse record.
-/

namespace Sys2Proof.Machine

/-- `IsPreamble(l, d)`: an `L` half strictly inside the preamble window (40_classifier.md R102). -/
def isPreamble (c : Config) (h : Half) : Bool :=
  h.level == .low && decide (c.preMin < h.dur) && decide (h.dur < c.preMax)

/-- `IsStart(l, d)`: an `H` half strictly inside the start window (40_classifier.md R103). -/
def isStart (c : Config) (h : Half) : Bool :=
  h.level == .high && decide (c.startMin < h.dur) && decide (h.dur < c.startMax)

/-- `BitOf(d)`: 1 below the threshold, else 0 (40_classifier.md R104). -/
def bitOf (c : Config) (d : Nat) : Bool := decide (d < c.bitThreshold)

/-- `PreRec(r)`: either half is a preamble (40_classifier.md R106). -/
def preRec (c : Config) (r : Record) : Bool := isPreamble c r.half0 || isPreamble c r.half1

/-- `StartRec(r)`: either half is a start (40_classifier.md R106). -/
def startRec (c : Config) (r : Record) : Bool := isStart c r.half0 || isStart c r.half1

/-- `LowHalf(r)`: the duration used for bit extraction, half 0's when both halves are `L`
(40_classifier.md R107, the spec's decision D10). -/
def lowHalf (r : Record) : Option Nat :=
  match r.half0.level, r.half1.level with
  | .low, _ => some r.half0.dur
  | .high, .low => some r.half1.dur
  | .high, .high => none

end Sys2Proof.Machine
end

