-- ==== Sys2Proof/Machine/Ops.lean ====
section
/-!
DEFINITION. The shared operations: the decoder step on its session state (41_decoder.md R121), the
encoder's sequence (42_encoder.md R171), and what the ports do around them (30_encoding.md R80 to R83,
70_reset_and_hazards.md R230). The block has no memory (20_memory.md R50) and takes no exception
(60_exceptions.md R200), so there is no operation for either.
-/

namespace Sys2Proof.Machine

/-! ## The decoder -/

/-- `s.expected_bits` as a number of bits (10_state.md R23). -/
def frameBits : FrameWidth → BitCount
  | .bits8 => 8#5
  | .bits16 => 16#5

/-- The start transition (41_decoder.md R126). -/
def startFrame (d : Decoder) : Decoder :=
  { d with
    expectedBits := if d.sawPreamble then .bits16 else .bits8
    sawPreamble := false
    bitCount := 0#5
    value := 0#16
    control := .collectingBits }

/-- Bit accumulation, most significant bit first (41_decoder.md R129, 20_memory.md R51; the counter's wrap
in states no run reaches is assumption 7). -/
def shiftIn (b : Bool) (d : Decoder) : Decoder :=
  { d with value := (d.value <<< 1) ||| (if b then 1#16 else 0#16), bitCount := d.bitCount + 1#5 }

/-- Frame completion: the time stamp, the emission decision, then, in all cases, back to seeking
(41_decoder.md R130). -/
def completeFrame (now : Nat) (d : Decoder) : Decoder × Option Result :=
  let e := emission { d with lastActivity := now }
  ({ e.1 with bitCount := 0#5, value := 0#16, control := .seekingStart }, e.2)

/-- A bit: shifted in, and the frame completed when it is the last one (41_decoder.md R129, R130). -/
def collectBit (now : Nat) (b : Bool) (d : Decoder) : Decoder × Option Result :=
  let d := shiftIn b d
  if d.bitCount = frameBits d.expectedBits then completeFrame now d else (d, none)

/-- The rules after the start rule: discard while seeking (R127), low-phase extraction (R128), bit
(R129). -/
def bitRules (c : Config) (r : Record) (now : Nat) (d : Decoder) : Decoder × Option Result :=
  match d.control with
  | .seekingStart => (d, none)
  | .collectingBits =>
    match lowHalf r with
    | none => (d, none)
    | some ld => collectBit now (bitOf c ld) d

/-- The start rule in either state (R125, R126), and what follows it. -/
def startRules (c : Config) (r : Record) (now : Nat) (d : Decoder) : Decoder × Option Result :=
  if startRec c r then
    if c.startFallthrough then bitRules c r now (startFrame d) else (startFrame d, none)
  else bitRules c r now d

/-- `PulseStep(s, rec, now)` of 41_decoder.md R121: the idle check (R122), then the rules in their
priority order (R123). -/
def pulseStep (c : Config) (r : Record) (now : Nat) (d : Decoder) : Decoder × Option Result :=
  let d := idleCheck c now d
  if d.control = .seekingStart ∧ preRec c r = true then
    if c.preFallthrough then startRules c r now (setPreamble d) else (setPreamble d, none)
  else startRules c r now d

/-- Records processed one after another, each with its time sample; the results in order. A batch is
such a sequence (30_encoding.md R79, 41_decoder.md R135). -/
def runPulses (c : Config) : List (Record × Nat) → Decoder → Decoder × List Result
  | [], d => (d, [])
  | (r, now) :: rest, d =>
    let p := pulseStep c r now d
    let q := runPulses c rest p.1
    (q.1, p.2.toList ++ q.2)

/-! ## The encoder -/

/-- A duration the encoder sends, from its exact value; the free value where that is no number of `DUR_W`
bits (assumption 6). -/
def sentDuration (c : Config) (x : Int) : Nat :=
  if 0 ≤ x ∧ x.toNat < 2 ^ c.durW then x.toNat else Config.unstatedDuration c x % 2 ^ c.durW

/-- One bit record the encoder sends: `((L, low), (H, BIT_PERIOD - low))` (42_encoder.md R171). -/
def bitRecord (c : Config) (b : Bool) : Record :=
  let low := if b then c.bit1Low else c.bit0Low
  { half0 := { level := .low, dur := sentDuration c low },
    half1 := { level := .high, dur := sentDuration c ((c.bitPeriod : Int) - low) } }

/-- A synchronization record: both halves `H` (42_encoder.md R171, R172). -/
def syncRecord (c : Config) (d : Nat) : Record :=
  { half0 := { level := .high, dur := sentDuration c d }, half1 := { level := .high, dur := sentDuration c d } }

/-- `Encode(V)`: two synchronization records, then the bits of V, bit 7 first (42_encoder.md R171). -/
def encodeSeq (c : Config) (v : Byte) : List Record :=
  syncRecord c c.sync1 :: syncRecord c c.sync2 ::
    [7, 6, 5, 4, 3, 2, 1, 0].map fun i => bitRecord c (v.getLsbD i)

/-! ## The ports -/

/-- `pin_ready`: no PULSE is taken while a result is untaken (30_encoding.md R82). -/
def pinReady (s : State) : Bool := s.resPending.isNone

/-- `enc_ready`: no request is accepted while a sequence is untaken (30_encoding.md R81). -/
def encReady (s : State) : Bool := s.txPending.isNone

/-- The signals that accompany an operation stand at the pulse port (30_encoding.md R78, R80;
assumption 13). `pin_now` has `TS_W` bits. -/
def present (o : Offer) (s : State) : State :=
  { s with pinNow := o.now % 2 ^ s.config.tsW, pinLast := o.last }

/-- The operation presented has been transferred: it no longer waits. -/
def accept (s : State) : State := { s with ops := s.ops.tail }

/-- After a record's step: `pin_release` pulses when it was the last of its batch, and a batch is in
progress when it was not (30_encoding.md R80). -/
def noteRecord (s : State) : State :=
  { s with batchOpen := !s.pinLast, releases := if s.pinLast then s.releases + 1 else s.releases }

/-- The consumer takes the result presented, if there is one (30_encoding.md R82). -/
def takeResult (s : State) : State :=
  match s.resPending with
  | none => s
  | some r => { s with resPending := none, results := s.results ++ [r] }

/-- The sink takes the whole sequence offered, if there is one (30_encoding.md R81, 42_encoder.md
R175). -/
def takeSequence (s : State) : State :=
  match s.txPending with
  | none => s
  | some q => { s with txPending := none, sequences := s.sequences ++ [q] }

/-- The effect of reset on the block (70_reset_and_hazards.md R230): the decoder at its reset values, an
untaken result and an untaken sequence withdrawn, a batch in progress released. The parameters and the
environment are not the block's to reset. -/
def resetBlock (s : State) : State :=
  { s with
    dec := Decoder.reset
    resPending := none
    txPending := none
    batchOpen := false
    releases := if s.batchOpen then s.releases + 1 else s.releases }

end Sys2Proof.Machine
end

