-- ==== Sys2Proof/Machine/FrameDecoder.lean ====
section
/-!
DEFINITION. The meaning of PULSE (41_decoder.md).
-/

namespace Sys2Proof.Machine

/-- PULSE (41_decoder.md R120, R121). While a result is untaken `pin_ready` is 0: the record is not
transferred and waits (30_encoding.md R82). Else the record is taken with the `pin_now` of this step and
the decoder step runs; a result it emits is presented at the result port. -/
def execPulse (r : Record) (s : State) : Host.Outcome State Fault Refusal :=
  if pinReady s then
    let p := pulseStep s.config r s.pinNow s.dec
    .next (noteRecord (accept { s with dec := p.1, resPending := p.2 }))
  else .next s

end Sys2Proof.Machine
end

