-- ==== Sys2Proof/Machine/FrameEncoder.lean ====
section
/-!
DEFINITION. The meaning of ENCODE (42_encoder.md).
-/

namespace Sys2Proof.Machine

/-- ENCODE (42_encoder.md R170, R171). While a sequence is untaken `enc_ready` is 0: the request is not
accepted and waits (30_encoding.md R81). Else the whole sequence is offered to the sink; the decoder's
state is neither read nor written. -/
def execEncode (v : Byte) (s : State) : Host.Outcome State Fault Refusal :=
  if encReady s then .next (accept { s with txPending := some (encodeSeq s.config v) })
  else .next s

end Sys2Proof.Machine
end

