-- ==== Sys2Proof/Machine/Reset.lean ====
section
/-!
DEFINITION. The meaning of RESET (70_reset_and_hazards.md).
-/

namespace Sys2Proof.Machine

/-- RESET (70_reset_and_hazards.md R230): always accepted, in every state. -/
def execReset (s : State) : Host.Outcome State Fault Refusal := .next (accept (resetBlock s))

end Sys2Proof.Machine
end

