-- ==== Sys2Proof/Machine/Dispatch.lean ====
section
/-!
DEFINITION. One arm per operation.
-/

namespace Sys2Proof.Machine

def exec (i : Instr) (s : State) : Host.Outcome State Fault Refusal :=
  match i with
  | .pulse r => Sys2Proof.Machine.execPulse r s
  | .encode v => Sys2Proof.Machine.execEncode v s
  | .reset => Sys2Proof.Machine.execReset s

end Sys2Proof.Machine
end

