-- ==== Sys2Proof/Machine/Step.lean ====
section
/-!
DEFINITION. One step of the machine: one agent moves (60_exceptions.md R211).
-/

namespace Sys2Proof.Machine

/-- One step. With no agent scheduled the block waits (60_exceptions.md R213). On an operation's turn the
oldest waiting operation word is presented at its port and run, or refused when it is reserved
(30_encoding.md R77); with none waiting nothing happens. The other turns are the consumer's, the sink's
and the reset input's. -/
def step (s : State) : Host.Outcome State Fault Refusal :=
  match s.turns with
  | [] => .next s
  | .operation :: ts =>
    match s.ops with
    | [] => .next { s with turns := ts }
    | o :: _ =>
      match decodeNumber s.config.durW o.word with
      | none => .refused (.reservedEncoding o.word)
      | some i => exec i (present o { s with turns := ts })
  | .consumer :: ts => .next (takeResult { s with turns := ts })
  | .sink :: ts => .next (takeSequence { s with turns := ts })
  | .rst :: ts => .next (resetBlock { s with turns := ts })

/-- The state with an operation word, given as a number with the bits of spec/opcode_table.json, waiting
first and its turn coming next. It comes with the `pin_now` and `pin_last` that stand at the port
(assumption 10). -/
def State.withFetchWord (s : State) (nbits w : Nat) : State :=
  { s with
    ops := { word := tableWord nbits w, now := s.pinNow, last := s.pinLast } :: s.ops
    turns := .operation :: s.turns }

end Sys2Proof.Machine
end

