-- ==== Sys2Proof/Machine/Channel.lean ====
section
/-!
DEFINITION. The informative channel model of 95_test_vectors.md section 4. It is not part of the block and
no step uses it: it states one way the transmit peripheral, the wire and the capture peripheral can turn
the encoder's records into the decoder's (70_reset_and_hazards.md R239).
-/

namespace Sys2Proof.Machine

/-- The halves of a sequence in time order. -/
def halvesOf (seq : List Record) : List Half := seq.flatMap fun r => [r.half0, r.half1]

/-- The phases on the wire: adjacent halves of the same level are one phase, and its duration the exact sum
(assumption 12). `cur` is the phase being extended. -/
def mergePhases (cur : Half) : List Half → List Half
  | [] => [cur]
  | h :: rest =>
    if cur.level = h.level then mergePhases { cur with dur := cur.dur + h.dur } rest
    else cur :: mergePhases h rest

/-- Consecutive phases paired into records; an unpaired last phase is dropped. -/
def pairPhases : List Half → List Record
  | a :: b :: rest => { half0 := a, half1 := b } :: pairPhases rest
  | _ => []

/-- `channel(seq, lead)`: the line is low for `lead` µs before the sequence. -/
def channel (seq : List Record) (lead : Nat) : List Record :=
  pairPhases (mergePhases { level := .low, dur := lead } (halvesOf seq))

end Sys2Proof.Machine
end

