-- ==== Sys2Proof/Machine/Classes.lean ====
section
/-!
DEFINITION. The anomaly taxonomy: the outcome class of a PULSE step and its anomaly code
(60_exceptions.md R201 to R205). A class is no output of the block and no state: it is computed from the
state and the record.
-/

namespace Sys2Proof.Machine

/-- The outcome classes of 60_exceptions.md R205. -/
inductive StepClass where
  | preamble
  | start
  | restart
  | discardSeek
  | discardNoLow
  | bit
  | byte
  | dupByte
  | word
  | spuriousWord
  | dupWord
deriving DecidableEq, Repr

/-- The anomaly code of a class: 1 malformed timing (R201), 2 truncated frame (R202), 3 spurious word
frame (R203); a suppressed repeat is none (R204). -/
def anomalyCode : StepClass → Option Nat
  | .discardSeek => some 1
  | .discardNoLow => some 1
  | .restart => some 2
  | .spuriousWord => some 3
  | .preamble | .start | .bit | .byte | .dupByte | .word | .dupWord => none

/-- The class of a completion, from the width of the frame and the suppression flags (R205). -/
def completionClass (d : Decoder) : StepClass :=
  match d.expectedBits, d.gotByte, d.gotWord with
  | .bits8, false, _ => .byte
  | .bits8, true, _ => .dupByte
  | .bits16, false, _ => .spuriousWord
  | .bits16, true, false => .word
  | .bits16, true, true => .dupWord

/-- The class of a bit: a completion class when it is the frame's last bit, else BIT (R205). -/
def bitClass (d : Decoder) : StepClass :=
  if d.bitCount + 1#5 = frameBits d.expectedBits then completionClass d else .bit

/-- The classes of one PULSE step, in the order the rules apply (R205): exactly one at the default
options; with a fall-through option PREAMBLE may be followed by START, and START or RESTART by a bit's
class. A record that already has a class and contributes nothing further gets no second one. -/
def stepClasses (c : Config) (r : Record) (now : Nat) (d0 : Decoder) : List StepClass :=
  let d := idleCheck c now d0
  let pre := decide (d.control = .seekingStart) && preRec c r
  let d1 := if pre then setPreamble d else d
  let st := startRec c r && (!pre || c.preFallthrough)
  let d2 := if st then startFrame d1 else d1
  let stClass : StepClass := if d.control = .seekingStart then .start else .restart
  let more := if st then c.startFallthrough else !pre
  let last : List StepClass :=
    match d2.control, lowHalf r with
    | .seekingStart, _ => [.discardSeek]
    | .collectingBits, none => if st then [] else [.discardNoLow]
    | .collectingBits, some _ => [bitClass d2]
  (if pre then [.preamble] else []) ++ (if st then [stClass] else []) ++ (if more then last else [])

end Sys2Proof.Machine
end

