-- ==== Sys2Proof/Machine/Ports.lean ====
section
/-!
DEFINITION. The output signals of the ports, as functions of the state (30_encoding.md R80 to R82).
`pin_ready` and `enc_ready` stand in Machine/Ops.lean; `pin_release` is counted in `State.releases`.
-/

namespace Sys2Proof.Machine

/-- `res_kind`: 0 for a byte, 1 for a word (30_encoding.md R82). -/
def resultKind : Result → BitVec 1
  | .byte _ => 0#1
  | .word _ => 1#1

/-- `res_data`: the byte zero-extended, or the word (30_encoding.md R82). -/
def resultData : Result → Word16
  | .byte b => b.setWidth 16
  | .word w => w

/-- `res_valid` (30_encoding.md R82). -/
def resValid (s : State) : Bool := s.resPending.isSome

/-- `res_kind`, while a result is presented. -/
def resKind (s : State) : Option (BitVec 1) := s.resPending.map resultKind

/-- `res_data`, while a result is presented. -/
def resData (s : State) : Option Word16 := s.resPending.map resultData

/-- `tx_valid` (30_encoding.md R81). -/
def txValid (s : State) : Bool := s.txPending.isSome

/-- `tx_seq`, while a sequence is offered: its record words in transmission order (30_encoding.md R81). -/
def txWords (s : State) : Option (List (RecWord s.config.durW)) :=
  s.txPending.map (·.map (wordOfRecord s.config.durW))

end Sys2Proof.Machine
end

