-- ==== Sys2Proof/Machine/Pseudo.lean ====
section
/-!
DEFINITION. The pseudo-operations of 30_encoding.md R85, as the operations they expand to, and the
textual form of R84 as a parser of one line.
-/

namespace Sys2Proof.Machine

/-- The bits of a byte, bit 7 first. -/
def byteBits (v : Byte) : List Bool := [7, 6, 5, 4, 3, 2, 1, 0].map v.getLsbD

/-- The bits of a word, bit 15 first. -/
def wordBits (w : Word16) : List Bool :=
  [15, 14, 13, 12, 11, 10, 9, 8, 7, 6, 5, 4, 3, 2, 1, 0].map w.getLsbD

/-- The record of `BIT1` or `BIT0` at the defaults (30_encoding.md R85). -/
def bitPulse (b : Bool) : Record := bitRecord defaultConfig b

/-- The record of `START`: `L:10000, H:30000` (30_encoding.md R85). -/
def startPulse : Record :=
  { half0 := { level := .low, dur := 10000 }, half1 := { level := .high, dur := 30000 } }

/-- The record of `PRE`: `L:1500, H:200` (30_encoding.md R85). -/
def prePulse : Record :=
  { half0 := { level := .low, dur := 1500 }, half1 := { level := .high, dur := 200 } }

/-- `FRAME8 v` (30_encoding.md R85). -/
def frame8 (v : Byte) : List Record := startPulse :: (byteBits v).map bitPulse

/-- `FRAME16 w` (30_encoding.md R85). -/
def frame16 (w : Word16) : List Record := prePulse :: startPulse :: (wordBits w).map bitPulse

/-! ## The textual form (30_encoding.md R84) -/

/-- The tokens of a line. -/
inductive AsmToken where
  | word (cs : List Char)
  | colon
  | comma
  | at
deriving DecidableEq, Repr

/-- Ends the word read so far. -/
def endWord (acc : List Char) (rest : List AsmToken) : List AsmToken :=
  if acc.isEmpty then rest else .word acc.reverse :: rest

/-- The tokens of a line; `;` starts a comment. `acc` is the word being read, reversed. -/
def asmTokens : List Char → List Char → List AsmToken
  | acc, [] => endWord acc []
  | acc, ch :: rest =>
    if ch = ';' then endWord acc []
    else if ch = ' ' ∨ ch = '\t' then endWord acc (asmTokens [] rest)
    else if ch = ':' then endWord acc (.colon :: asmTokens [] rest)
    else if ch = ',' then endWord acc (.comma :: asmTokens [] rest)
    else if ch = '@' then endWord acc (.at :: asmTokens [] rest)
    else asmTokens (ch :: acc) rest

/-- The value of a digit in a base up to 16. -/
def digitValue (base : Nat) (ch : Char) : Option Nat :=
  let n := ch.toNat
  let v := if 48 ≤ n ∧ n ≤ 57 then n - 48
    else if 97 ≤ n ∧ n ≤ 102 then n - 87
    else if 65 ≤ n ∧ n ≤ 70 then n - 55
    else 16
  if v < base then some v else none

/-- The digits of a number, most significant first. -/
def digitsValue (base : Nat) : List Char → Nat → Option Nat
  | [], acc => some acc
  | ch :: rest, acc =>
    match digitValue base ch with
    | none => none
    | some v => digitsValue base rest (acc * base + v)

/-- A number, decimal or `0x` hexadecimal, that fits in `bits` bits. -/
def asmNumber (bits : Nat) (cs : List Char) : Option Nat :=
  let n := match cs with
    | [] => none
    | '0' :: 'x' :: ch :: rest => digitsValue 16 (ch :: rest) 0
    | ch :: rest => digitsValue 10 (ch :: rest) 0
  match n with
  | none => none
  | some n => if n < 2 ^ bits then some n else none

/-- A level, `L` or `H`. -/
def asmLevel : List Char → Option Level
  | ['L'] => some .low
  | ['H'] => some .high
  | _ => none

/-- A half, `<lv>:<dur>`. -/
def asmHalf (c : Config) (lv dur : List Char) : Option Half :=
  match asmLevel lv, asmNumber c.durW dur with
  | some l, some d => some { level := l, dur := d }
  | _, _ => none

/-- Records with one time sample for all of them. -/
def asmPulses (c : Config) (rs : List Record) (now : List Char) : Option (List (Instr × Option Nat)) :=
  (asmNumber c.tsW now).map fun t => rs.map fun r => (.pulse r, some t)

/-- One line of the textual form, for an instance with the widths of `c`: the operations it stands for,
each PULSE with its time sample; a pseudo-operation stands for its expansion at the defaults, an empty or
comment line for none (assumption 14). -/
def asmLine (c : Config) (line : List Char) : Option (List (Instr × Option Nat)) :=
  match asmTokens [] line with
  | [] => some []
  | [.word ['P', 'U', 'L', 'S', 'E'], .word l0, .colon, .word d0, .comma, .word l1, .colon, .word d1,
      .at, .word t] =>
    match asmHalf c l0 d0, asmHalf c l1 d1 with
    | some h0, some h1 => asmPulses c [{ half0 := h0, half1 := h1 }] t
    | _, _ => none
  | [.word ['E', 'N', 'C', 'O', 'D', 'E'], .word v] =>
    (asmNumber 8 v).map fun b => [(.encode (BitVec.ofNat 8 b), none)]
  | [.word ['R', 'E', 'S', 'E', 'T']] => some [(.reset, none)]
  | [.word ['B', 'I', 'T', '1'], .at, .word t] => asmPulses c [bitPulse true] t
  | [.word ['B', 'I', 'T', '0'], .at, .word t] => asmPulses c [bitPulse false] t
  | [.word ['S', 'T', 'A', 'R', 'T'], .at, .word t] => asmPulses c [startPulse] t
  | [.word ['P', 'R', 'E'], .at, .word t] => asmPulses c [prePulse] t
  | [.word ['F', 'R', 'A', 'M', 'E', '8'], .word v, .at, .word t] =>
    match asmNumber 8 v with
    | some b => asmPulses c (frame8 (BitVec.ofNat 8 b)) t
    | none => none
  | [.word ['F', 'R', 'A', 'M', 'E', '1', '6'], .word v, .at, .word t] =>
    match asmNumber 16 v with
    | some w => asmPulses c (frame16 (BitVec.ofNat 16 w)) t
    | none => none
  | _ => none

end Sys2Proof.Machine
end

