-- ==== Sys2Proof/Safety.lean ====
section
/-!
DEFINITION. The terms the statements use: the invariants of 41_decoder.md R136 and of the ports, and a
state in which every operation runs at once.
-/

namespace Sys2Proof.Safety

open Sys2Proof Sys2Proof.Machine

/-- (I1), (I2) and (I3) of 41_decoder.md R136. -/
def DecoderInv (d : Decoder) : Prop :=
  (d.control = .seekingStart → d.bitCount = 0#5 ∧ d.value = 0#16) ∧
  (d.control = .collectingBits →
    d.sawPreamble = false ∧ d.bitCount.toNat < (frameBits d.expectedBits).toNat ∧
      d.value.toNat < 2 ^ d.bitCount.toNat) ∧
  (d.gotWord = true → d.gotByte = true)

/-- What an untaken result says of the flags: its own flag is set (41_decoder.md R131, R132), and a word
comes after a byte. -/
def PendingInv (d : Decoder) : Option Result → Prop
  | none => True
  | some (.byte _) => d.gotByte = true
  | some (.word _) => d.gotByte = true ∧ d.gotWord = true

/-- The invariant of the machine: the decoder's, an untaken result's, that an untaken sequence is
`Encode(V)` of some value (30_encoding.md R81), and that times have `TS_W` bits (00_scope.md R4). -/
def StateInv (s : State) : Prop :=
  DecoderInv s.dec ∧ PendingInv s.dec s.resPending ∧
  (∀ q, s.txPending = some q → ∃ v, q = encodeSeq s.config v) ∧
  s.dec.lastActivity < 2 ^ s.config.tsW ∧ s.pinNow < 2 ^ s.config.tsW

/-- The suppression flags after the idle check (41_decoder.md R122), said without the check's own
definition: a flag stays set only when the difference is at most the idle window. -/
def keptFlag (flag : Bool) (s : State) : Bool :=
  flag && decide (((s.pinNow : Int) - s.dec.lastActivity) % (2 ^ s.config.tsW : Nat) ≤ s.config.idleWindow)

/-- The result, if any, of a frame that completes with these bits (41_decoder.md R131 to R133), from the
flags as the idle check leaves them. -/
def reported (width : FrameWidth) (value : Word16) (gotByte gotWord : Bool) : Option Result :=
  match width, gotByte, gotWord with
  | .bits8, false, _ => some (.byte (value.setWidth 8))
  | .bits16, true, false => some (.word value)
  | _, _, _ => none

/-- The state after a record that was transferred, whose step leaves the decoder state `d` and emits `res`:
the record no longer waits, its batch is released when it was the last one and stays open when it was not
(30_encoding.md R80), and everything else is as in `s`. -/
def afterRecord (s : State) (d : Decoder) (res : Option Result) : State :=
  { s with
    dec := d
    resPending := res
    ops := s.ops.tail
    batchOpen := !s.pinLast
    releases := if s.pinLast then s.releases + 1 else s.releases }

/-- The value of a list of bits, the first one most significant (20_memory.md R51). -/
def msbFirst (bits : List Bool) : Nat := bits.foldl (fun n b => 2 * n + b.toNat) 0

/-- The result is a byte. -/
def isByte : Result → Bool
  | .byte _ => true
  | .word _ => false

/-- How many of the results are bytes. -/
def byteCount (rs : List Result) : Nat := rs.countP isByte

/-- How many of the results are words. -/
def wordCount (rs : List Result) : Nat := rs.countP (!isByte ·)

/-- The bits a run of records is classified into, one for each record with a low half, in order
(40_classifier.md R104, R107). -/
def bitsOf (c : Config) (ps : List (Record × Nat)) : List Bool :=
  (ps.filterMap fun p => lowHalf p.1).map (bitOf c)

/-- Every record of the run is a bit record: no start record, and it has an `L` half (41_decoder.md
R143). -/
def allBitRecords (c : Config) (ps : List (Record × Nat)) : Prop :=
  ∀ p ∈ ps, startRec c p.1 = false ∧ (p.1.half0.level = .low ∨ p.1.half1.level = .low)

/-- The total duration of a sequence of records, in microseconds. -/
def totalDuration (rs : List Record) : Nat :=
  (rs.map fun r => r.half0.dur + r.half1.dur).sum

/-- No step of the run of these records from `d` is a boundary step (41_decoder.md R137). -/
def withinTransaction (c : Config) : List (Record × Nat) → Decoder → Prop
  | [], _ => True
  | (r, now) :: rest, d =>
    isBoundary c now d = false ∧ withinTransaction c rest (pulseStep c r now d).1

/-- The operations that present these records at a width of durations, each the last of its batch. -/
def pulseOffers (durW : Nat) (ps : List (Record × Nat)) : List Offer :=
  ps.map fun p => { word := (encode durW (.pulse p.1)).toNat, now := p.2, last := true }

/-- One operation's turn and then the consumer's, for each of these records: the consumer takes every
result at once. -/
def promptTurns (ps : List (Record × Nat)) : List Turn := ps.flatMap fun _ => [.operation, .consumer]

/-- The step from `s` to `t` is a reset: the input `rst`, or an operation's turn whose word is RESET's
(70_reset_and_hazards.md R230). -/
def resetMoves (s t : State) : Prop :=
  s.turns = .rst :: t.turns ∨
  s.turns = .operation :: t.turns ∧ ∃ o, s.ops = o :: t.ops ∧ decodeNumber s.config.durW o.word = some .reset

end Sys2Proof.Safety
end

