-- ==== Sys2Proof/Certificates/Slice0/Obligations.lean ====
section
/-!
DEFINITION. The statements for the provers. Each docstring names the rule or the section of spec/ it
formalises; where a clause rests on a choice of the model, it names the assumption.
-/

open Sys2Proof Sys2Proof.Machine Sys2Proof.Safety

/-! ## Encoding -/

/-- Decoding the word of an operation gives the operation back, at every width of durations and with every
operand at every value of its width (30_encoding.md R70 to R75; the layout at a width other than 16 is
assumption 4). -/
def Obligations.DecodeEncodeRoundTrip : Prop :=
  ∀ (durW : Nat) (i : Instr), i.wellFormed durW = true → decode durW (encode durW i) = some i

/-- Each word has one meaning: a word that decodes gives operands of their widths and is the word of what
it decodes to (30_encoding.md R73 to R75; the layout at a width other than 16 is assumption 4). -/
def Obligations.EncodeDecodeRoundTrip : Prop :=
  ∀ (durW : Nat) (w : OpWord durW) (i : Instr), decode durW w = some i →
    i.wellFormed durW = true ∧ encode durW i = w

/-- The reserved space of 30_encoding.md R76, as arithmetic on the word's number, is exactly what the
decoder refuses. -/
def Obligations.ReservedSpaceIsRefused : Prop :=
  ∀ w : BitVec 36, decodeNumber 16 w.toNat = none ↔
    (w.toNat / 2 ^ 34 = 3 ∨
     (w.toNat / 2 ^ 34 = 1 ∧ w.toNat % 2 ^ 34 / 2 ^ 8 ≠ 0) ∨
     (w.toNat / 2 ^ 34 = 2 ∧ w.toNat % 2 ^ 34 ≠ 0))

/-- The rows of spec/opcode_table.json: a word's masked bits are a row's match exactly when it decodes to
that row's operation; so a word decodes at all exactly when the table admits it. -/
def Obligations.OpcodeTableRowsDecode : Prop :=
  ∀ w : BitVec 36,
    (w &&& 0xC00000000#36 = 0x000000000#36 ↔ ∃ r, decodeNumber 16 w.toNat = some (.pulse r)) ∧
    (w &&& 0xFFFFFFF00#36 = 0x400000000#36 ↔ ∃ v, decodeNumber 16 w.toNat = some (.encode v)) ∧
    (w &&& 0xFFFFFFFFF#36 = 0x800000000#36 ↔ decodeNumber 16 w.toNat = some .reset) ∧
    ((decodeNumber 16 w.toNat).isSome = legalWord w)

/-- The operands of a PULSE word, the record word below selector 00, at every width of durations: `l0` is
the top bit, then `d0`, `l1` and `d1`; at `DUR_W = 16` these are bit 33, bits 32:17, bit 16 and bits 15:0
(30_encoding.md R70, R71, R73). The record word is R70's at every width; that an operation word with nothing
above it is a PULSE is R72 and R73 at `DUR_W = 16` and the model's choice at another width, assumption 4. -/
def Obligations.PulseWordOperands : Prop :=
  ∀ durW w : Nat, w < 2 ^ (2 * (1 + durW)) →
    ∃ r, decodeNumber durW w = some (.pulse r) ∧
      (r.half0.level = .high ↔ w / 2 ^ (2 * durW + 1) = 1) ∧
      r.half0.dur = w / 2 ^ (durW + 1) % 2 ^ durW ∧
      (r.half1.level = .high ↔ w / 2 ^ durW % 2 = 1) ∧
      r.half1.dur = w % 2 ^ durW

/-- Decode of an ENCODE word and of the RESET word (30_encoding.md R74, R75). -/
def Obligations.EncodeAndResetWordsDecode : Prop :=
  (∀ w : BitVec 36, w.toNat / 2 ^ 34 = 1 → w.toNat % 2 ^ 34 / 2 ^ 8 = 0 →
    decodeNumber 16 w.toNat = some (.encode (BitVec.ofNat 8 (w.toNat % 2 ^ 8)))) ∧
  (∀ w : BitVec 36, w.toNat / 2 ^ 34 = 2 → w.toNat % 2 ^ 34 = 0 →
    decodeNumber 16 w.toNat = some .reset)

/-- Words of 95_test_vectors.md section 2.4, one of each operation, decode to the operation they stand
for: OV4, OV5, OV6, OV7 and OV12. -/
def Obligations.SampleWordsDecode : Prop :=
  decodeTableWord 40 0x04E217530 = some (.pulse startPulse) ∧
  decodeTableWord 40 0x200000000 = some (.pulse { half0 := { level := .high, dur := 0 }, half1 := { level := .low, dur := 0 } }) ∧
  decodeTableWord 40 0x000010000 = some (.pulse { half0 := { level := .low, dur := 0 }, half1 := { level := .high, dur := 0 } }) ∧
  decodeTableWord 40 0x4000000A5 = some (.encode 0xA5#8) ∧
  decodeTableWord 40 0x800000000 = some .reset

/-- The words of the pseudo-operations and their expansions, bit 7 and bit 15 first (30_encoding.md
R85). -/
def Obligations.PseudoOperationWords : Prop :=
  (encode 16 (.pulse (bitPulse true))).toNat = 0x01F411FA4 ∧
  (encode 16 (.pulse (bitPulse false))).toNat = 0x03E811004 ∧
  (encode 16 (.pulse startPulse)).toNat = 0x04E217530 ∧
  (encode 16 (.pulse prePulse)).toNat = 0x00BB900C8 ∧
  (∀ v : Byte, frame8 v =
    startPulse :: (List.range 8).map fun k => bitPulse (decide (v.toNat / 2 ^ (7 - k) % 2 = 1))) ∧
  (∀ w : Word16, frame16 w = prePulse ::
    startPulse :: (List.range 16).map fun k => bitPulse (decide (w.toNat / 2 ^ (15 - k) % 2 = 1)))

/-- The textual form: the example of 30_encoding.md R84 with a comment, and an ENCODE and a RESET line. -/
def Obligations.TextualFormExample : Prop :=
  asmLine defaultConfig ['P', 'U', 'L', 'S', 'E', ' ', 'L', ':', '1', '5', '0', '0', ',', ' ', 'H', ':', '2', '0', '0',
      ' ', '@', '1', '0', '0', '0', ' ', ';', 'p'] = some [(.pulse prePulse, some 1000)] ∧
  asmLine defaultConfig ['E', 'N', 'C', 'O', 'D', 'E', ' ', '0', 'x', 'A', '5'] = some [(.encode 0xA5#8, none)] ∧
  asmLine defaultConfig ['E', 'N', 'C', 'O', 'D', 'E', ' ', '2', '5', '6'] = none ∧
  asmLine defaultConfig ['R', 'E', 'S', 'E', 'T'] = some [(.reset, none)]

/-! ## The classifier -/

/-- `IsPreamble` (40_classifier.md R102), with its corner cases at the defaults. -/
def Obligations.PreambleWindow : Prop :=
  (∀ (c : Config) (h : Half), isPreamble c h = true ↔
    h.level = .low ∧ c.preMin < h.dur ∧ h.dur < c.preMax) ∧
  isPreamble defaultConfig { level := .low, dur := 800 } = false ∧
  isPreamble defaultConfig { level := .low, dur := 801 } = true ∧
  isPreamble defaultConfig { level := .low, dur := 1500 } = true ∧
  isPreamble defaultConfig { level := .low, dur := 2999 } = true ∧
  isPreamble defaultConfig { level := .low, dur := 3000 } = false

/-- `IsStart` (40_classifier.md R103), with its corner cases at the defaults. -/
def Obligations.StartWindow : Prop :=
  (∀ (c : Config) (h : Half), isStart c h = true ↔
    h.level = .high ∧ c.startMin < h.dur ∧ h.dur < c.startMax) ∧
  isStart defaultConfig { level := .high, dur := 28000 } = false ∧
  isStart defaultConfig { level := .high, dur := 28001 } = true ∧
  isStart defaultConfig { level := .high, dur := 30000 } = true ∧
  isStart defaultConfig { level := .high, dur := 31999 } = true ∧
  isStart defaultConfig { level := .high, dur := 32000 } = false

/-- `BitOf` (40_classifier.md R104): the threshold, the law over all durations at the defaults, and that
the duration it is applied to is an `L` half's. -/
def Obligations.BitThreshold : Prop :=
  (∀ (c : Config) (d : Nat), bitOf c d = true ↔ d < c.bitThreshold) ∧
  (∀ d : Nat, (d < 6000 → bitOf defaultConfig d = true) ∧
    (6000 ≤ d → bitOf defaultConfig d = false)) ∧
  (∀ (r : Record) (d : Nat), lowHalf r = some d → r.half0 = { level := .low, dur := d } ∨ r.half1 = { level := .low, dur := d })

/-- `PreRec` and `StartRec`: either half; a record can be both (40_classifier.md R106). -/
def Obligations.RecordPredicates : Prop :=
  (∀ (c : Config) (r : Record), preRec c r = true ↔ (isPreamble c r.half0 = true ∨ isPreamble c r.half1 = true)) ∧
  (∀ (c : Config) (r : Record), startRec c r = true ↔ (isStart c r.half0 = true ∨ isStart c r.half1 = true)) ∧
  preRec defaultConfig prePulse = true ∧ startRec defaultConfig prePulse = false ∧
  (∃ r : Record, preRec defaultConfig r = true ∧ startRec defaultConfig r = true)

/-- `LowHalf`: half 0 when it is `L`, else half 1 when it is `L`, else none (40_classifier.md R107; that
half 0 wins when both are `L` is the spec's decision D10). -/
def Obligations.LowHalfChoice : Prop :=
  ∀ d0 d1 : Nat,
    lowHalf { half0 := { level := .low, dur := d0 }, half1 := { level := .low, dur := d1 } } = some d0 ∧
    lowHalf { half0 := { level := .low, dur := d0 }, half1 := { level := .high, dur := d1 } } = some d0 ∧
    lowHalf { half0 := { level := .high, dur := d0 }, half1 := { level := .low, dur := d1 } } = some d1 ∧
    lowHalf { half0 := { level := .high, dur := d0 }, half1 := { level := .high, dur := d1 } } = none

/-! ## PULSE -/

/-- The idle check (41_decoder.md R122): above the window both suppression flags are cleared, at or below
it they are kept, nothing else changes; and it comes first on every record: on a boundary step a record
does exactly what it does from the state with both flags already cleared. -/
def Obligations.IdleCheckComesFirst : Prop :=
  (∀ (c : Config) (now : Nat) (d : Decoder),
    idleCheck c now d =
      if ((now : Int) - d.lastActivity) % (2 ^ c.tsW : Nat) > c.idleWindow
      then { d with gotByte := false, gotWord := false } else d) ∧
  (∀ (r : Record) (s : State),
    ((s.pinNow : Int) - s.dec.lastActivity) % (2 ^ s.config.tsW : Nat) > s.config.idleWindow →
    s.resPending = none →
    ∃ t, exec (.pulse r) s = .next t ∧
      exec (.pulse r) { s with dec := { s.dec with gotByte := false, gotWord := false } } = .next t)

/-- Wrap-around (60_exceptions.md R209, an inference the spec marks as its own): at every width of the time
base, a span with no record is seen modulo `2^TS_W`; so after `k * 2^TS_W` µs and at most IDLE_WINDOW more
the check does not fire, however long the span was. -/
def Obligations.IdleCheckWrapsAround : Prop :=
  (∀ (c : Config) (d : Decoder) (span : Nat),
    idleCheck c ((d.lastActivity + span) % 2 ^ c.tsW) d =
      if span % 2 ^ c.tsW ≤ c.idleWindow then d else { d with gotByte := false, gotWord := false }) ∧
  (∀ (c : Config) (d : Decoder) (k j : Nat), j ≤ c.idleWindow →
    idleCheck c ((d.lastActivity + (k * 2 ^ c.tsW + j)) % 2 ^ c.tsW) d = d)

/-- The preamble rule (41_decoder.md R124): in SEEKING_START a preamble record sets the flag, produces no
bit, and with PRE_FALLTHROUGH false the start test is not made (with it true, a preamble record that is no
start record does the same); in COLLECTING_BITS no record sets the flag, and the step is the same whatever the
preamble window is, so a preamble record falls to the start and bit rules. -/
def Obligations.PreambleRecordSetsFlag : Prop :=
  (∀ (r : Record) (s : State), s.resPending = none → s.dec.control = .seekingStart →
    preRec s.config r = true →
    (s.config.preFallthrough = false ∨ startRec s.config r = false) →
    exec (.pulse r) s = .next (afterRecord s
      { s.dec with
        sawPreamble := true
        gotByte := keptFlag s.dec.gotByte s
        gotWord := keptFlag s.dec.gotWord s } none)) ∧
  (∀ (r : Record) (s : State) (lo hi : Nat), s.dec.control = .collectingBits →
    let c : Config := { s.config with preMin := lo, preMax := hi }
    ∃ t, exec (.pulse r) s = .next t ∧ (s.dec.sawPreamble = false → t.dec.sawPreamble = false) ∧
      exec (.pulse r) { s with config := c } = .next { t with config := c })

/-- The start rule (41_decoder.md R125, R126), in either state and for every value of the options: the
width is latched from the preamble flag, the flag cleared, the accumulator cleared, and COLLECTING_BITS
entered; the record's own `L` half is a bit only with START_FALLTHROUGH. -/
def Obligations.StartRecordBeginsFrame : Prop :=
  ∀ (r : Record) (s : State), s.resPending = none → startRec s.config r = true →
    (s.dec.control = .collectingBits ∨ preRec s.config r = false ∨ s.config.preFallthrough = true) →
    exec (.pulse r) s = .next (afterRecord s
      { control := .collectingBits
        expectedBits :=
          if s.dec.sawPreamble = true ∨ (s.dec.control = .seekingStart ∧ preRec s.config r = true)
          then .bits16 else .bits8
        sawPreamble := false
        bitCount := if s.config.startFallthrough = true ∧ (lowHalf r).isSome = true then 1#5 else 0#5
        value :=
          if s.config.startFallthrough = true ∧ (lowHalf r).any (bitOf s.config) = true then 1#16 else 0#16
        gotByte := keptFlag s.dec.gotByte s
        gotWord := keptFlag s.dec.gotWord s
        lastActivity := s.dec.lastActivity } none)

/-- Discard while seeking (41_decoder.md R127): a record that leaves the decoder seeking after the
preamble and start rules contributes no bit and changes nothing further: beside what the idle check and,
with PRE_FALLTHROUGH, the preamble rule wrote, the decoder is as it was. -/
def Obligations.SeekingDiscardsOtherRecords : Prop :=
  ∀ (r : Record) (s : State), s.resPending = none → s.dec.control = .seekingStart →
    startRec s.config r = false → (preRec s.config r = false ∨ s.config.preFallthrough = true) →
    exec (.pulse r) s = .next (afterRecord s
      { s.dec with
        sawPreamble := s.dec.sawPreamble || preRec s.config r
        gotByte := keptFlag s.dec.gotByte s
        gotWord := keptFlag s.dec.gotWord s } none)

/-- No low half (41_decoder.md R128): while collecting, a record of two `H` halves that is no start record
changes nothing but what the idle check does. -/
def Obligations.RecordWithoutLowHalfIsDiscarded : Prop :=
  ∀ (r : Record) (s : State), s.resPending = none → s.dec.control = .collectingBits →
    startRec s.config r = false → r.half0.level = .high → r.half1.level = .high →
    exec (.pulse r) s = .next (afterRecord s
      { s.dec with
        gotByte := keptFlag s.dec.gotByte s
        gotWord := keptFlag s.dec.gotWord s } none)

/-- Bit accumulation (41_decoder.md R129; which half gives the bit is R107, with the spec's decision D10),
before the frame's last bit: the accumulator is shifted left by
one, truncated to 16 bits, the classified bit enters at the bottom, and the count goes up by one. -/
def Obligations.BitIsShiftedIn : Prop :=
  ∀ (r : Record) (s : State) (ld : Nat), s.resPending = none → s.dec.control = .collectingBits →
    startRec s.config r = false → lowHalf r = some ld →
    s.dec.bitCount + 1#5 ≠ frameBits s.dec.expectedBits →
    exec (.pulse r) s = .next (afterRecord s
      { s.dec with
        value := BitVec.ofNat 16
          (2 * s.dec.value.toNat + if ld < s.config.bitThreshold then 1 else 0)
        bitCount := s.dec.bitCount + 1#5
        gotByte := keptFlag s.dec.gotByte s
        gotWord := keptFlag s.dec.gotWord s } none)

/-- Frame completion (41_decoder.md R130 to R133), on the frame's last bit (R129): the time stamp is
written, the result of `reported` is presented (a byte once, then a word once, per transaction; 30_encoding.md
R82), its flag is set, and the decoder seeks again with a cleared accumulator. That the next state has the
batch released (R80) while the record's result is untaken is the model's choice, assumption 8. -/
def Obligations.LastBitCompletesFrame : Prop :=
  ∀ (r : Record) (s : State) (ld : Nat), s.resPending = none → s.dec.control = .collectingBits →
    startRec s.config r = false → lowHalf r = some ld →
    s.dec.bitCount + 1#5 = frameBits s.dec.expectedBits →
    exec (.pulse r) s = .next (afterRecord s
      { control := .seekingStart
        expectedBits := s.dec.expectedBits
        value := 0#16
        bitCount := 0#5
        sawPreamble := s.dec.sawPreamble
        gotByte := decide (s.dec.expectedBits = .bits8) || keptFlag s.dec.gotByte s
        gotWord := keptFlag s.dec.gotWord s ||
          (decide (s.dec.expectedBits = .bits16) && keptFlag s.dec.gotByte s)
        lastActivity := s.pinNow }
      (reported s.dec.expectedBits
        (BitVec.ofNat 16
          (2 * s.dec.value.toNat + if ld < s.config.bitThreshold then 1 else 0))
        (keptFlag s.dec.gotByte s) (keptFlag s.dec.gotWord s)))

/-- While a result is untaken no PULSE step is taken: the record waits and nothing changes (30_encoding.md
R82). -/
def Obligations.PulseWaitsForConsumer : Prop :=
  ∀ (r : Record) (s : State) (x : Result), s.resPending = some x → exec (.pulse r) s = .next s

/-- A transferred record releases its batch when it was the last one, and leaves the batch in progress
when it was not (30_encoding.md R80; that the release does not wait for the consumer is assumption 8). -/
def Obligations.LastRecordReleasesBatch : Prop :=
  ∀ (r : Record) (s : State), s.resPending = none →
    ∃ t, exec (.pulse r) s = .next t ∧ t.batchOpen = !s.pinLast ∧
      t.releases = s.releases + s.pinLast.toNat ∧ t.ops = s.ops.tail

/-- The frame of PULSE: whatever the record and the state, the parameters, the encoder's port, the input
signals, the schedule and what the environment has received are unchanged, and at most the presented
record leaves the waiting operations. -/
def Obligations.PulseFrame : Prop :=
  ∀ (r : Record) (s : State), ∃ t, exec (.pulse r) s = .next t ∧
    t.config = s.config ∧ t.txPending = s.txPending ∧ t.pinNow = s.pinNow ∧ t.pinLast = s.pinLast ∧
    t.turns = s.turns ∧ t.results = s.results ∧ t.sequences = s.sequences ∧
    (t.ops = s.ops ∨ t.ops = s.ops.tail)

/-- Time touches only the suppression flags and the time stamp (41_decoder.md section 3, R140, an inference
the spec marks as its own): two steps
on the same record at different times agree on the control state, the width, the accumulator, the count
and the preamble flag, so silence never ends a partial frame. -/
def Obligations.TimeNeverTouchesTheFrame : Prop :=
  ∀ (r : Record) (s : State) (a b : Nat), ∃ t u,
    exec (.pulse r) { s with pinNow := a } = .next t ∧
    exec (.pulse r) { s with pinNow := b } = .next u ∧
    t.dec.control = u.dec.control ∧ t.dec.expectedBits = u.dec.expectedBits ∧
    t.dec.value = u.dec.value ∧ t.dec.bitCount = u.dec.bitCount ∧
    t.dec.sawPreamble = u.dec.sawPreamble

/-- The time stamp is written only at a completion, with `pin_now` (10_state.md R28, 41_decoder.md R130);
the records before it do not restart the idle window (section 3, R141, an inference the spec marks as its
own). -/
def Obligations.TimeStampOnlyAtCompletion : Prop :=
  ∀ (r : Record) (s t : State), exec (.pulse r) s = .next t →
    t.dec.lastActivity = s.dec.lastActivity ∨
    (s.dec.control = .collectingBits ∧ t.dec.control = .seekingStart ∧ t.dec.bitCount = 0#5 ∧
      t.dec.lastActivity = s.pinNow)

/-- A result is presented only by a completing step (41_decoder.md section 3, R134, an inference
the spec marks as its own). -/
def Obligations.ResultOnlyAtCompletion : Prop :=
  ∀ (r : Record) (s t : State) (x : Result), s.resPending = none → exec (.pulse r) s = .next t →
    t.resPending = some x →
    s.dec.control = .collectingBits ∧ startRec s.config r = false ∧ (lowHalf r).isSome = true ∧
      s.dec.bitCount + 1#5 = frameBits s.dec.expectedBits ∧
      t.dec.control = .seekingStart ∧ t.dec.gotByte = true ∧ t.dec.lastActivity = s.pinNow ∧
      (isByte x = true ↔ s.dec.expectedBits = .bits8)

/-- A start record while collecting always begins a byte frame (41_decoder.md section 3, R138,
an inference the spec marks as its own, from the invariant of R136). -/
def Obligations.RestartBeginsByteFrame : Prop :=
  ∀ (r : Record) (s : State), DecoderInv s.dec → s.resPending = none →
    s.dec.control = .collectingBits → startRec s.config r = true →
    ∃ t, exec (.pulse r) s = .next t ∧ t.dec.control = .collectingBits ∧ t.dec.expectedBits = .bits8 ∧
      t.resPending = none

/-- The outcome classes (60_exceptions.md section 2, R205, an inference the spec marks as its own): at the
default options every step has exactly one class, under the condition its row of the table names, with the
row's anomaly code and output. The suppression flags are those the idle check leaves (R122). The class of a
step is no state and no output of the block: assumption 9. -/
def Obligations.StepClassesFollowTable : Prop :=
  (∀ (c : Config) (r : Record) (now : Nat) (d : Decoder),
    c.preFallthrough = false → c.startFallthrough = false →
    let kept : Bool := decide (((now : Int) - d.lastActivity) % (2 ^ c.tsW : Nat) ≤ c.idleWindow)
    let gotByte := d.gotByte && kept
    let gotWord := d.gotWord && kept
    let bitRec := d.control = .collectingBits ∧ startRec c r = false ∧ (lowHalf r).isSome = true
    let completes := bitRec ∧ d.bitCount + 1#5 = frameBits d.expectedBits
    ∃ k, stepClasses c r now d = [k] ∧
      (k = .preamble ↔ d.control = .seekingStart ∧ preRec c r = true) ∧
      (k = .start ↔ d.control = .seekingStart ∧ startRec c r = true ∧ preRec c r = false) ∧
      (k = .restart ↔ d.control = .collectingBits ∧ startRec c r = true) ∧
      (k = .discardSeek ↔ d.control = .seekingStart ∧ preRec c r = false ∧ startRec c r = false) ∧
      (k = .discardNoLow ↔ d.control = .collectingBits ∧ startRec c r = false ∧ lowHalf r = none) ∧
      (k = .bit ↔ bitRec ∧ d.bitCount + 1#5 ≠ frameBits d.expectedBits) ∧
      (k = .byte ↔ completes ∧ d.expectedBits = .bits8 ∧ gotByte = false) ∧
      (k = .dupByte ↔ completes ∧ d.expectedBits = .bits8 ∧ gotByte = true) ∧
      (k = .word ↔ completes ∧ d.expectedBits = .bits16 ∧ gotByte = true ∧ gotWord = false) ∧
      (k = .spuriousWord ↔ completes ∧ d.expectedBits = .bits16 ∧ gotByte = false) ∧
      (k = .dupWord ↔ completes ∧ d.expectedBits = .bits16 ∧ gotByte = true ∧ gotWord = true) ∧
      (k = .byte ↔ ∃ b, (pulseStep c r now d).2 = some (.byte b)) ∧
      (k = .word ↔ ∃ w, (pulseStep c r now d).2 = some (.word w)) ∧
      (k = .discardSeek ∨ k = .discardNoLow → pulseStep c r now d = (idleCheck c now d, none)) ∧
      (k = .dupByte ∨ k = .spuriousWord ∨ k = .dupWord →
        (pulseStep c r now d).1.lastActivity = now ∧ (pulseStep c r now d).1.control = .seekingStart)) ∧
  anomalyCode .preamble = none ∧ anomalyCode .start = none ∧ anomalyCode .restart = some 2 ∧
  anomalyCode .discardSeek = some 1 ∧ anomalyCode .discardNoLow = some 1 ∧ anomalyCode .bit = none ∧
  anomalyCode .byte = none ∧ anomalyCode .dupByte = none ∧ anomalyCode .word = none ∧
  anomalyCode .spuriousWord = some 3 ∧ anomalyCode .dupWord = none

/-! ## Runs of records -/

/-- Batch boundaries are invisible (41_decoder.md section 3, R135, an inference the spec marks as its own):
records processed as two batches do
what they do as one, and the mark of the last record reaches no decoder field and no result. -/
def Obligations.BatchBoundariesAreInvisible : Prop :=
  (∀ (c : Config) (xs ys : List (Record × Nat)) (d : Decoder),
    runPulses c (xs ++ ys) d =
      ((runPulses c ys (runPulses c xs d).1).1,
       (runPulses c xs d).2 ++ (runPulses c ys (runPulses c xs d).1).2)) ∧
  (∀ (r : Record) (s : State), ∃ t u,
    exec (.pulse r) { s with pinLast := false } = .next t ∧
    exec (.pulse r) { s with pinLast := true } = .next u ∧
    t.dec = u.dec ∧ t.resPending = u.resPending)

/-- At most one byte and one word per transaction, the word after the byte (41_decoder.md section 3,
R137, an inference the spec marks as its own): for a transaction that begins at a boundary step, and for
one that begins at reset (or in any state with both flags clear). -/
def Obligations.AtMostOneResultOfEachKind : Prop :=
  ∀ (c : Config) (ps : List (Record × Nat)) (d : Decoder),
    ((d.gotByte = false ∧ d.gotWord = false ∧ withinTransaction c ps d) ∨
     (∃ r now rest, ps = (r, now) :: rest ∧ isBoundary c now d = true ∧
       withinTransaction c rest (pulseStep c r now d).1)) →
    byteCount (runPulses c ps d).2 ≤ 1 ∧ wordCount (runPulses c ps d).2 ≤ 1 ∧
    ∀ pre w post, (runPulses c ps d).2 = pre ++ .word w :: post → byteCount pre = 1

/-- After a boundary step no word is reported before a byte is (41_decoder.md section 3, R142, an inference
the spec marks as its own), however many boundary steps follow. -/
def Obligations.WordNeedsByteAfterBoundary : Prop :=
  ∀ (c : Config) (r : Record) (now : Nat) (ps : List (Record × Nat)) (d : Decoder)
    (pre post : List Result) (w : Word16),
    isBoundary c now d = true → (runPulses c ((r, now) :: ps) d).2 = pre ++ .word w :: post →
    0 < byteCount pre

/-- A byte frame (41_decoder.md R126, R129 to R131; 20_memory.md R51): a start record that is no preamble
record, then eight bit records at any times, from a seeking decoder with neither the preamble flag nor the
byte flag set, report exactly one byte, whose bits are the records' bits, the first one in bit 7. -/
def Obligations.ByteFrameIsReported : Prop :=
  ∀ (c : Config) (start : Record) (t0 tn : Nat) (lastRec : Record) (init : List (Record × Nat)) (d : Decoder),
    c.startFallthrough = false → startRec c start = true → preRec c start = false →
    d.control = .seekingStart → d.sawPreamble = false → d.gotByte = false →
    init.length = 7 → allBitRecords c (init ++ [(lastRec, tn)]) →
    (runPulses c ((start, t0) :: (init ++ [(lastRec, tn)])) d).2 =
      [.byte (BitVec.ofNat 8 (msbFirst (bitsOf c (init ++ [(lastRec, tn)]))))] ∧
    (runPulses c ((start, t0) :: (init ++ [(lastRec, tn)])) d).1.control = .seekingStart ∧
    (runPulses c ((start, t0) :: (init ++ [(lastRec, tn)])) d).1.gotByte = true ∧
    (runPulses c ((start, t0) :: (init ++ [(lastRec, tn)])) d).1.lastActivity = tn

/-- A word frame (41_decoder.md R124, R126, R129, R130, R132, R133; 20_memory.md R51): a preamble record
that is no start record, a start record that is no preamble record, and sixteen bit records. After a byte,
with no boundary step among them, they report exactly the word; with no byte before them they report
nothing, at whatever times. -/
def Obligations.WordFrameNeedsByte : Prop :=
  ∀ (c : Config) (pream start : Record) (tp t0 : Nat) (bits : List (Record × Nat)) (d : Decoder),
    c.startFallthrough = false → preRec c pream = true → startRec c pream = false →
    startRec c start = true → preRec c start = false → d.control = .seekingStart →
    bits.length = 16 → allBitRecords c bits →
    (d.gotByte = true → d.gotWord = false →
      withinTransaction c ((pream, tp) :: (start, t0) :: bits) d →
      (runPulses c ((pream, tp) :: (start, t0) :: bits) d).2 =
        [.word (BitVec.ofNat 16 (msbFirst (bitsOf c bits)))]) ∧
    (d.gotByte = false → (runPulses c ((pream, tp) :: (start, t0) :: bits) d).2 = [])

/-- The reset values of `expected_bits` and `last_activity` reach no result (10_state.md section 5, R33,
an inference the spec marks as its own; the values themselves are the spec's decision D6). -/
def Obligations.ResetWidthAndTimeUnobservable : Prop :=
  ∀ (c : Config) (ps : List (Record × Nat)) (e : FrameWidth) (t : Nat),
    (runPulses c ps { Decoder.reset with expectedBits := e, lastActivity := t }).2 =
      (runPulses c ps Decoder.reset).2

/-- The machine with its ports, run with a consumer that takes every result at once, is the transaction
level decoder of 00_scope.md R2 on records and times of their widths: the same next decoder states and the
same results in the same order (20_memory.md R57). The schedule that says so is assumption 2, and what a
release counts assumption 8. -/
def Obligations.PortsRefineTransactions : Prop :=
  ∀ (ps : List (Record × Nat)) (rest : List Offer) (ts : List Turn) (s : State),
    (∀ p ∈ ps, p.1.wellFormed s.config.durW = true ∧ p.2 < 2 ^ s.config.tsW) →
    s.resPending = none → s.ops = pulseOffers s.config.durW ps ++ rest → s.turns = promptTurns ps ++ ts →
    ∃ t : State, Host.Core.run Sys2Proof.core (2 * ps.length) s = .next t ∧
      t.dec = (runPulses s.config ps s.dec).1 ∧
      t.results = s.results ++ (runPulses s.config ps s.dec).2 ∧
      t.resPending = none ∧ t.ops = rest ∧ t.turns = ts ∧
      t.releases = s.releases + ps.length ∧
      t.config = s.config ∧ t.txPending = s.txPending ∧ t.sequences = s.sequences

/-! ## ENCODE -/

/-- ENCODE (42_encoder.md R170, R171): under the constraints of 40_classifier.md R101 that a low phase is no
longer than the bit period (b) and that the constants sent have `DUR_W` bits (a), the ten records of
`Encode(V)` are offered to the sink, two synchronization records and then bit 7 down to bit 0, and nothing
else changes. -/
def Obligations.EncodeOffersSequence : Prop :=
  ∀ (v : Byte) (s : State), s.txPending = none →
    s.config.bit1Low ≤ s.config.bitPeriod → s.config.bit0Low ≤ s.config.bitPeriod →
    s.config.bitPeriod < 2 ^ s.config.durW →
    s.config.sync1 < 2 ^ s.config.durW → s.config.sync2 < 2 ^ s.config.durW →
    exec (.encode v) s = .next
      { s with
        ops := s.ops.tail
        txPending := some (
          Record.mk (Half.mk .high s.config.sync1) (Half.mk .high s.config.sync1) ::
          Record.mk (Half.mk .high s.config.sync2) (Half.mk .high s.config.sync2) ::
          (List.range 8).map fun k =>
            if v.toNat / 2 ^ (7 - k) % 2 = 1
            then Record.mk (Half.mk .low s.config.bit1Low) (Half.mk .high (s.config.bitPeriod - s.config.bit1Low))
            else Record.mk (Half.mk .low s.config.bit0Low) (Half.mk .high (s.config.bitPeriod - s.config.bit0Low))) }

/-- For every configuration, also one outside 40_classifier.md R101, where a duration that is no number of
`DUR_W` bits is a free value (assumption 6): ENCODE completes with ten records of the levels of
42_encoder.md R171, every duration of `DUR_W` bits, and nothing else changes; each synchronization duration,
each bit's low duration and each bit's high duration `BIT_PERIOD - low` that is a number of `DUR_W` bits is
sent as it is, whatever the other ones are, bit 7 in record 2 and bit 0 in record 9. -/
def Obligations.EncodeCompletesForEveryConfig : Prop :=
  ∀ (v : Byte) (s : State), s.txPending = none → ∃ q : List Record,
    exec (.encode v) s = .next { s with ops := s.ops.tail, txPending := some q } ∧
    q.length = 10 ∧
    q.map (·.half0.level) = .high :: .high :: List.replicate 8 .low ∧
    q.map (·.half1.level) = List.replicate 10 .high ∧
    (∀ r ∈ q, r.wellFormed s.config.durW = true) ∧
    (s.config.sync1 < 2 ^ s.config.durW →
      ∀ r ∈ q.take 1, r.half0.dur = s.config.sync1 ∧ r.half1.dur = s.config.sync1) ∧
    (s.config.sync2 < 2 ^ s.config.durW →
      ∀ r ∈ (q.drop 1).take 1, r.half0.dur = s.config.sync2 ∧ r.half1.dur = s.config.sync2) ∧
    ∀ (k : Nat) (r : Record), k < 8 → q[k + 2]? = some r →
      let low := if v.toNat / 2 ^ (7 - k) % 2 = 1 then s.config.bit1Low else s.config.bit0Low
      (low < 2 ^ s.config.durW → r.half0.dur = low) ∧
      (low ≤ s.config.bitPeriod → s.config.bitPeriod - low < 2 ^ s.config.durW →
        r.half1.dur = s.config.bitPeriod - low)

/-- While a sequence is untaken the next request is not accepted: it waits and nothing changes
(30_encoding.md R81). -/
def Obligations.EncodeWaitsForSink : Prop :=
  ∀ (v : Byte) (s : State) (q : List Record), s.txPending = some q → exec (.encode v) s = .next s

/-- Length and duration (42_encoder.md R173, an inference the spec marks as its own): ten records for every
configuration, and under the constraints (a) and (b) of 40_classifier.md R101 the same total duration for
every value; 126800 µs at the defaults. -/
def Obligations.EncodedLengthAndDuration : Prop :=
  (∀ (c : Config) (v : Byte), (encodeSeq c v).length = 10) ∧
  (∀ (c : Config) (v : Byte), c.constantsFit = true → c.bitsOrdered = true →
    totalDuration (encodeSeq c v) = 2 * c.sync1 + 2 * c.sync2 + 8 * c.bitPeriod) ∧
  (∀ v : Byte, totalDuration (encodeSeq defaultConfig v) = 126800)

/-- The encoder's bit records classify back to the bits of the value, bit 7 first, and none of them is a
start record (42_encoder.md R174, an inference the spec marks as its own; 20_memory.md R52), under the
constraints (b) and (e) of 40_classifier.md R101 and a bit period of `DUR_W` bits (a). -/
def Obligations.EncodedBitsReadBack : Prop :=
  ∀ (c : Config) (v : Byte), c.bitsOrdered = true → c.bitsAreNotStarts = true →
    c.bitPeriod < 2 ^ c.durW →
    (((encodeSeq c v).drop 2).filterMap lowHalf).map (bitOf c) = byteBits v ∧
    msbFirst (byteBits v) = v.toNat ∧
    ∀ r ∈ (encodeSeq c v).drop 2, startRec c r = false

/-- The encoder's records given directly to a seeking decoder report nothing and leave it seeking, with
its preamble flag as it was (42_encoder.md R176, an inference the spec marks as its own). -/
def Obligations.DirectFeedReportsNothing : Prop :=
  ∀ (v : Byte) (ps : List (Record × Nat)) (d : Decoder),
    ps.map (·.1) = encodeSeq defaultConfig v → d.control = .seekingStart →
    (runPulses defaultConfig ps d).2 = [] ∧
    (runPulses defaultConfig ps d).1.control = .seekingStart ∧
    (runPulses defaultConfig ps d).1.sawPreamble = d.sawPreamble ∧
    (runPulses defaultConfig ps d).1.lastActivity = d.lastActivity

/-- The round-trip law (95_test_vectors.md section 4, 90_conflicts.md C6): through the informative channel
model, for every value, every time and every lead outside the preamble window, the decoder reports exactly
one byte, the value; with a lead inside the window it reports nothing. -/
def Obligations.RoundTripThroughChannel : Prop :=
  ∀ (v : Byte) (lead : Nat) (now : Nat),
    ((lead ≤ 800 ∨ 3000 ≤ lead) →
      runPulses defaultConfig ((channel (encodeSeq defaultConfig v) lead).map (·, now)) Decoder.reset =
        ({ Decoder.reset with gotByte := true, lastActivity := now }, [.byte v])) ∧
    ((800 < lead ∧ lead < 3000) →
      runPulses defaultConfig ((channel (encodeSeq defaultConfig v) lead).map (·, now)) Decoder.reset =
        ({ Decoder.reset with sawPreamble := true }, []))

/-- The decoder and the encoder share no state (20_memory.md R58): a PULSE and an ENCODE that are both
ready do the same in either order. -/
def Obligations.PulseAndEncodeCommute : Prop :=
  ∀ (r : Record) (v : Byte) (s : State), s.resPending = none → s.txPending = none →
    ∃ a b t, exec (.pulse r) s = .next a ∧ exec (.encode v) a = .next t ∧
      exec (.encode v) s = .next b ∧ exec (.pulse r) b = .next t

/-! ## RESET -/

/-- RESET, as an operation and as the input `rst` (70_reset_and_hazards.md section 1): every decoder field at
its reset value, no result, no encoder output; an untaken result and an untaken sequence withdrawn, a
batch in progress released; the parameters and the environment untouched. What waits and whose turn it is
are assumption 2; what a batch in progress is and how its release counts are assumption 8. -/
def Obligations.ResetWritesEveryField : Prop :=
  ∀ s : State,
    let block : State :=
      { s with
        dec :=
          { control := .seekingStart, expectedBits := .bits8, value := 0#16, bitCount := 0#5,
            sawPreamble := false, gotByte := false, gotWord := false, lastActivity := 0 }
        resPending := none
        txPending := none
        batchOpen := false
        releases := s.releases + s.batchOpen.toNat }
    exec .reset s = .next { block with ops := s.ops.tail } ∧
    ∀ ts, s.turns = .rst :: ts → step s = .next { block with turns := ts }

/-- The reset values of 10_state.md R32, at power-on and after a RESET from any state. -/
def Obligations.ResetValues : Prop :=
  (∀ d : Decoder,
    (d = State.reset.dec ∨ ∃ s t, exec .reset s = .next t ∧ d = t.dec) →
    d.control = .seekingStart ∧ d.expectedBits = .bits8 ∧ d.value = 0#16 ∧ d.bitCount = 0#5 ∧
    d.sawPreamble = false ∧ d.gotByte = false ∧ d.gotWord = false ∧ d.lastActivity = 0) ∧
  ∀ s, ∃ t, exec .reset s = .next t

/-! ## The machine -/

/-- A step runs the decoded operation: with an operation's turn next and a waiting word that decodes, the
step is `exec` of what it decodes to, with the turn consumed. The accompanying `pin_now`, of `TS_W` bits,
and `pin_last` are at the port, which for a PULSE is 30_encoding.md R78 and R80 and for the other
operations, which read neither, is the model's choice, assumption 13. The schedule is assumption 2 and the
word as a number assumption 11. -/
def Obligations.StepRunsDecodedOperation : Prop :=
  ∀ (s : State) (o : Offer) (os : List Offer) (ts : List Turn) (i : Instr),
    s.turns = .operation :: ts → s.ops = o :: os → decodeNumber s.config.durW o.word = some i →
    step s = exec i { s with turns := ts, pinNow := o.now % 2 ^ s.config.tsW, pinLast := o.last }

/-- A reserved word is refused by name, and the refusal is kept for the whole run (30_encoding.md R77); at
the default width the reserved words are those the opcode table does not admit. -/
def Obligations.ReservedWordStopsTheRun : Prop :=
  ∀ (s : State) (o : Offer) (os : List Offer) (ts : List Turn),
    s.turns = .operation :: ts → s.ops = o :: os →
    (decodeNumber s.config.durW o.word = none ∨
      s.config.durW = 16 ∧ legalWord (BitVec.ofNat 36 o.word) = false) →
    step s = .refused (.reservedEncoding o.word) ∧
    ∀ k, Host.Core.run Sys2Proof.core (k + 1) s = .refused (.reservedEncoding o.word)

/-- No operation raises an exception, faults, stops or hangs on any input, and the only outcome other than
a next state is the refusal of a reserved operation word (60_exceptions.md R200). -/
def Obligations.OnlyReservedWordsAreRefused : Prop :=
  (∀ (i : Instr) (s : State), ∃ t, exec i s = .next t) ∧
  (∀ s : State, (∃ t, step s = .next t) ∨
    ∃ o os ts, s.turns = .operation :: ts ∧ s.ops = o :: os ∧ decodeNumber s.config.durW o.word = none ∧
      step s = .refused (.reservedEncoding o.word))

/-- The invariants of 41_decoder.md R136 (an inference the spec marks as its own) and those of the ports
are kept by every step, for every value of the parameters and the widths, from every state that meets
them. -/
def Obligations.StepKeepsInvariants : Prop :=
  ∀ s t : State, StateInv s → step s = .next t → StateInv t

/-- The state after reset meets the invariants (41_decoder.md R136, an inference the spec marks
as its own). -/
def Obligations.ResetMeetsInvariants : Prop := StateInv State.reset

/-- No step changes a parameter (10_state.md R29). -/
def Obligations.ParametersNeverChange : Prop :=
  ∀ s t : State, step s = .next t → t.config = s.config

/-- Operations are taken in order, and each is run when it is taken (20_memory.md R57): a step leaves the
waiting operations as they are, or takes exactly the oldest one on an operation's turn, with its port ready
(30_encoding.md R81, R82) and with its effect. That all operations wait in one list is assumption 2. -/
def Obligations.OperationsAreTakenInOrder : Prop :=
  ∀ s t : State, step s = .next t →
    t.ops = s.ops ∨
    ∃ o i, s.turns = .operation :: t.turns ∧ s.ops = o :: t.ops ∧
      decodeNumber s.config.durW o.word = some i ∧
      ((∃ r, i = .pulse r ∧ s.resPending = none ∧ t.txPending = s.txPending ∧
          (t.dec, t.resPending) = pulseStep s.config r (o.now % 2 ^ s.config.tsW) s.dec) ∨
       (∃ v, i = .encode v ∧ s.txPending = none ∧ t.txPending = some (encodeSeq s.config v) ∧
          t.dec = s.dec ∧ t.resPending = s.resPending) ∨
       (i = .reset ∧ t.dec = Decoder.reset ∧ t.resPending = none ∧ t.txPending = none))

/-- A result presented stays until the consumer takes it, whole and once, on its turn, or a reset withdraws
it (30_encoding.md R82, 60_exceptions.md R206, 70_reset_and_hazards.md R230). The turns are
assumption 2. -/
def Obligations.ResultHeldUntilTaken : Prop :=
  ∀ (s t : State) (x : Result), s.resPending = some x → step s = .next t →
    (t.resPending = some x ∧ t.results = s.results ∧ t.dec = s.dec) ∨
    (s.turns = .consumer :: t.turns ∧ t.resPending = none ∧ t.results = s.results ++ [x] ∧ t.dec = s.dec) ∨
    (resetMoves s t ∧ t.resPending = none ∧ t.results = s.results ∧ t.dec = Decoder.reset)

/-- A sequence offered stays whole until the sink takes it, on its turn, or a reset withdraws it
(20_memory.md R56, 42_encoder.md R175, 70_reset_and_hazards.md R230). The turns are assumption 2. -/
def Obligations.SequenceHeldUntilTaken : Prop :=
  ∀ (s t : State) (q : List Record), s.txPending = some q → step s = .next t →
    (t.txPending = some q ∧ t.sequences = s.sequences) ∨
    (s.turns = .sink :: t.turns ∧ t.txPending = none ∧ t.sequences = s.sequences ++ [q]) ∨
    (resetMoves s t ∧ t.txPending = none ∧ t.sequences = s.sequences ∧ t.dec = Decoder.reset)

/-- The consumer's turn and the sink's turn (30_encoding.md R81, R82): what is presented is taken, and
nothing else changes but the turn; with nothing presented nothing is taken. -/
def Obligations.ConsumerAndSinkTurns : Prop :=
  ∀ (s : State) (ts : List Turn),
    (s.turns = .consumer :: ts →
      step s = .next { s with turns := ts, resPending := none, results := s.results ++ s.resPending.toList }) ∧
    (s.turns = .sink :: ts →
      step s = .next { s with turns := ts, txPending := none, sequences := s.sequences ++ s.txPending.toList })

/-- With no agent's turn next the block waits, and on an operation's turn with none waiting nothing
happens (60_exceptions.md R213): a decoder with no input is waiting, not stopped. -/
def Obligations.NoInputMeansWaiting : Prop :=
  (∀ s : State, s.turns = [] → step s = .next s) ∧
  (∀ (s : State) (ts : List Turn), s.turns = .operation :: ts → s.ops = [] →
    step s = .next { s with turns := ts }) ∧
  step State.reset = .next State.reset

/-- The result port's data (30_encoding.md R82): kind 0 and the zero-extended byte, or kind 1 and the
word; and the ready signals. -/
def Obligations.PortSignals : Prop :=
  (∀ b : Byte, resultKind (.byte b) = 0#1 ∧ (resultData (.byte b)).toNat = b.toNat) ∧
  (∀ w : Word16, resultKind (.word w) = 1#1 ∧ resultData (.word w) = w) ∧
  (∀ s : State, (pinReady s = !resValid s) ∧ (encReady s = !txValid s))
end

