-- ==== Sys2Proof/Laws/Decode.lean ====
section
/-!
SUPPORT. Operation words and their decoding, as arithmetic on numbers, at every width of durations.
-/

namespace Sys2Proof.Laws

open Sys2Proof

/-- A level is one bit. -/
theorem bitOfLevel_lt (l : Level) : (bitOfLevel l).toNat < 2 := (bitOfLevel l).isLt

/-- The number of a concatenation. -/
theorem append_toNat {a b : Nat} (x : BitVec a) (y : BitVec b) :
    (x ++ y).toNat = x.toNat * 2 ^ b + y.toNat := by
  rw [BitVec.toNat_append, Nat.shiftLeft_eq, Nat.mul_comm, ← Nat.two_pow_add_eq_or_of_lt y.isLt]

/-- The payload holds a record word, and a value of 8 bits. -/
theorem recBits_le (durW : Nat) : recBits durW ≤ payloadBits durW := Nat.le_max_left _ _

theorem eight_le (durW : Nat) : 8 ≤ payloadBits durW := Nat.le_max_right _ _

/-- The number of an operation word is below `4 * 2^payloadBits`. -/
theorem toNat_lt_four (durW : Nat) (w : OpWord durW) : w.toNat < 4 * 2 ^ payloadBits durW := by
  have h := w.isLt
  rwa [Nat.pow_add] at h

/-- The number of a half. -/
theorem wordOfHalf_toNat (durW : Nat) (h : Half) :
    (wordOfHalf durW h).toNat = (bitOfLevel h.level).toNat * 2 ^ durW + h.dur % 2 ^ durW := by
  rw [wordOfHalf, append_toNat, BitVec.toNat_ofNat]

/-- The number of a record word (30_encoding.md R70). -/
theorem wordOfRecord_toNat (durW : Nat) (r : Record) :
    (wordOfRecord durW r).toNat =
      ((bitOfLevel r.half0.level).toNat * 2 ^ durW + r.half0.dur % 2 ^ durW) * 2 ^ (1 + durW) +
        ((bitOfLevel r.half1.level).toNat * 2 ^ durW + r.half1.dur % 2 ^ durW) := by
  rw [wordOfRecord, BitVec.toNat_cast, append_toNat, wordOfHalf_toNat, wordOfHalf_toNat]

/-- A PULSE word is its record word (30_encoding.md R73). -/
theorem encode_pulse_toNat (durW : Nat) (r : Record) :
    (encode durW (.pulse r)).toNat = (wordOfRecord durW r).toNat := by
  have h : (wordOfRecord durW r).toNat < 2 ^ payloadBits durW :=
    lt_of_lt_of_le (wordOfRecord durW r).isLt (Nat.pow_le_pow_right (by decide) (recBits_le durW))
  rw [encode, append_toNat, BitVec.toNat_setWidth, Nat.mod_eq_of_lt h]
  simp

/-- The number of an ENCODE word (30_encoding.md R74). -/
theorem encode_encode_toNat (durW : Nat) (v : Byte) :
    (encode durW (.encode v)).toNat = 2 ^ payloadBits durW + v.toNat := by
  have h : v.toNat < 2 ^ payloadBits durW :=
    lt_of_lt_of_le v.isLt (Nat.pow_le_pow_right (by decide) (eight_le durW))
  rw [encode, append_toNat, BitVec.toNat_setWidth, Nat.mod_eq_of_lt h]
  simp

/-- The number of the RESET word (30_encoding.md R75). -/
theorem encode_reset_toNat (durW : Nat) : (encode durW .reset).toNat = 2 * 2 ^ payloadBits durW := by
  rw [encode, append_toNat]
  simp

/-- A field of a word is a quotient and a remainder of its number. -/
theorem field_eq_iff {n : Nat} (w : BitVec n) (a k x : Nat) :
    w.extractLsb' a k = BitVec.ofNat k x ↔ w.toNat / 2 ^ a % 2 ^ k = x % 2 ^ k := by
  rw [← BitVec.toNat_inj, BitVec.extractLsb'_toNat, BitVec.toNat_ofNat, Nat.shiftRight_eq_div_pow]

/-- The low bits of a word are a word of its number. -/
theorem lowField_eq {n : Nat} (w : BitVec n) (k : Nat) : w.extractLsb' 0 k = BitVec.ofNat k w.toNat := by
  rw [field_eq_iff, Nat.pow_zero, Nat.div_one]

/-- The decoder, on the number of the word (30_encoding.md R77). -/
theorem decode_eq (durW : Nat) (w : OpWord durW) : decode durW w =
    if w.toNat / 2 ^ payloadBits durW = 0 then
      if w.toNat < 2 ^ recBits durW then
        some (.pulse (recordOfWord durW (BitVec.ofNat (recBits durW) w.toNat)))
      else none
    else if w.toNat / 2 ^ payloadBits durW = 1 then
      if w.toNat % 2 ^ payloadBits durW < 2 ^ 8 then some (.encode (BitVec.ofNat 8 w.toNat)) else none
    else if w.toNat / 2 ^ payloadBits durW = 2 then
      if w.toNat % 2 ^ payloadBits durW = 0 then some .reset else none
    else none := by
  have hq : w.toNat / 2 ^ payloadBits durW < 2 ^ 2 :=
    Nat.div_lt_of_lt_mul (by rw [Nat.mul_comm]; exact toNat_lt_four durW w)
  have sel (x : Nat) (hx : x < 2 ^ 2) :
      w.extractLsb' (payloadBits durW) 2 = BitVec.ofNat 2 x ↔ w.toNat / 2 ^ payloadBits durW = x := by
    rw [field_eq_iff, Nat.mod_eq_of_lt hq, Nat.mod_eq_of_lt hx]
  -- the field from bit a up to the payload's end is zero exactly when the payload is below 2^a
  have upper (a : Nat) (ha : a ≤ payloadBits durW) :
      w.extractLsb' a (payloadBits durW - a) = 0 ↔ w.toNat % 2 ^ payloadBits durW < 2 ^ a := by
    have e : w.toNat / 2 ^ a % 2 ^ (payloadBits durW - a) = w.toNat % 2 ^ payloadBits durW / 2 ^ a := by
      rw [← Nat.mod_mul_right_div_self, ← Nat.pow_add, Nat.add_sub_cancel' ha]
    have := field_eq_iff w a (payloadBits durW - a) 0
    rw [Nat.zero_mod, e, Nat.div_eq_zero_iff] at this
    rw [show (0 : BitVec (payloadBits durW - a)) = BitVec.ofNat _ 0 from rfl, this]
    constructor
    · rintro (h | h)
      · exact absurd h (Nat.two_pow_pos a).ne'
      · exact h
    · exact .inr
  have low : BitVec.ofNat (payloadBits durW) w.toNat = 0 ↔ w.toNat % 2 ^ payloadBits durW = 0 := by
    rw [← BitVec.toNat_inj]; simp
  unfold decode
  simp only [sel 0 (by decide), sel 1 (by decide), sel 2 (by decide), upper _ (recBits_le durW),
    upper _ (eight_le durW), lowField_eq, low]
  by_cases h0 : w.toNat / 2 ^ payloadBits durW = 0
  · have hlt : w.toNat < 2 ^ payloadBits durW := by
      rcases Nat.div_eq_zero_iff.mp h0 with h | h
      · exact absurd h (Nat.two_pow_pos _).ne'
      · exact h
    rw [if_pos h0, if_pos h0, Nat.mod_eq_of_lt hlt]
  · rw [if_neg h0, if_neg h0]

/-- A word in the reserved space of 30_encoding.md R76 is the only one the decoder refuses, on numbers. -/
theorem decode_eq_none_iff (durW : Nat) (w : OpWord durW) : decode durW w = none ↔
    (w.toNat / 2 ^ payloadBits durW = 3 ∨
     (w.toNat / 2 ^ payloadBits durW = 0 ∧ 2 ^ recBits durW ≤ w.toNat) ∨
     (w.toNat / 2 ^ payloadBits durW = 1 ∧ 2 ^ 8 ≤ w.toNat % 2 ^ payloadBits durW) ∨
     (w.toNat / 2 ^ payloadBits durW = 2 ∧ w.toNat % 2 ^ payloadBits durW ≠ 0)) := by
  have hq : w.toNat / 2 ^ payloadBits durW < 4 :=
    Nat.div_lt_of_lt_mul (by rw [Nat.mul_comm]; exact toNat_lt_four durW w)
  rw [decode_eq]
  generalize w.toNat / 2 ^ payloadBits durW = q at *
  generalize w.toNat % 2 ^ payloadBits durW = m
  split
  · split <;> simp <;> omega
  · split
    · split <;> simp <;> omega
    · split
      · split <;> simp <;> omega
      · simp; omega

/-- The fields of a record word below `2^recBits`, on its number (30_encoding.md R71). -/
theorem recordOfWord_fields (durW n : Nat) (h : n < 2 ^ recBits durW) :
    let r := recordOfWord durW (BitVec.ofNat (recBits durW) n)
    (r.half0.level = .high ↔ n / 2 ^ (2 * durW + 1) % 2 = 1) ∧
    r.half0.dur = n / 2 ^ (durW + 1) % 2 ^ durW ∧
    (r.half1.level = .high ↔ n / 2 ^ durW % 2 = 1) ∧
    r.half1.dur = n % 2 ^ durW := by
  have level (i : Nat) :
      levelOfBit ((BitVec.ofNat (recBits durW) n).getLsbD i) = .high ↔ n / 2 ^ i % 2 = 1 := by
    rw [BitVec.getLsbD, BitVec.toNat_ofNat, Nat.mod_eq_of_lt h, Nat.testBit_eq_decide_div_mod_eq]
    simp [levelOfBit]
  refine ⟨level _, ?_, level _, ?_⟩ <;>
    simp only [recordOfWord, BitVec.extractLsb'_toNat, BitVec.toNat_ofNat, Nat.mod_eq_of_lt h,
      Nat.shiftRight_eq_div_pow, Nat.pow_zero, Nat.div_one]

/-- The decoder at the default width, on the number of a 36-bit word (30_encoding.md R77). -/
theorem decodeNumber_default (w : BitVec 36) : decodeNumber 16 w.toNat =
    if w.toNat / 2 ^ 34 = 0 then some (.pulse (recordOfWord 16 (BitVec.ofNat (recBits 16) w.toNat)))
    else if w.toNat / 2 ^ 34 = 1 then
      if w.toNat % 2 ^ 34 / 2 ^ 8 = 0 then some (.encode (BitVec.ofNat 8 w.toNat)) else none
    else if w.toNat / 2 ^ 34 = 2 then
      if w.toNat % 2 ^ 34 = 0 then some .reset else none
    else none := by
  have hw := w.isLt
  have e : (BitVec.ofNat (opBits 16) w.toNat).toNat = w.toNat := by
    rw [BitVec.toNat_ofNat]; exact Nat.mod_eq_of_lt hw
  have v : w.toNat % 2 ^ 34 < 2 ^ 8 ↔ w.toNat % 2 ^ 34 / 2 ^ 8 = 0 := by omega
  rw [decodeNumber, decode_eq, e]
  simp only [show payloadBits 16 = 34 from rfl]
  rw [show 2 ^ recBits 16 = 2 ^ 34 from rfl]
  by_cases h : w.toNat / 2 ^ 34 = 0
  · rw [if_pos h, if_pos h, if_pos (by omega)]
  · rw [if_neg h, if_neg h]
    simp only [v]

end Sys2Proof.Laws
end

