-- ==== Sys2Proof/Laws/State.lean ====
section
/-!
SUPPORT. The small lemmas of the state updates: what each shared update leaves in each field.
-/

namespace Sys2Proof.Laws

open Sys2Proof Sys2Proof.Machine Sys2Proof.Safety

/-! ## `setPreamble` -/

@[simp] theorem setPreamble_control (d : Decoder) : (setPreamble d).control = d.control := rfl
@[simp] theorem setPreamble_expectedBits (d : Decoder) : (setPreamble d).expectedBits = d.expectedBits := rfl
@[simp] theorem setPreamble_value (d : Decoder) : (setPreamble d).value = d.value := rfl
@[simp] theorem setPreamble_bitCount (d : Decoder) : (setPreamble d).bitCount = d.bitCount := rfl
@[simp] theorem setPreamble_sawPreamble (d : Decoder) : (setPreamble d).sawPreamble = true := rfl
@[simp] theorem setPreamble_gotByte (d : Decoder) : (setPreamble d).gotByte = d.gotByte := rfl
@[simp] theorem setPreamble_gotWord (d : Decoder) : (setPreamble d).gotWord = d.gotWord := rfl
@[simp] theorem setPreamble_lastActivity (d : Decoder) : (setPreamble d).lastActivity = d.lastActivity := rfl

/-! ## `startFrame` -/

@[simp] theorem startFrame_control (d : Decoder) : (startFrame d).control = .collectingBits := rfl
@[simp] theorem startFrame_expectedBits (d : Decoder) : (startFrame d).expectedBits = if d.sawPreamble then .bits16 else .bits8 := rfl
@[simp] theorem startFrame_value (d : Decoder) : (startFrame d).value = 0#16 := rfl
@[simp] theorem startFrame_bitCount (d : Decoder) : (startFrame d).bitCount = 0#5 := rfl
@[simp] theorem startFrame_sawPreamble (d : Decoder) : (startFrame d).sawPreamble = false := rfl
@[simp] theorem startFrame_gotByte (d : Decoder) : (startFrame d).gotByte = d.gotByte := rfl
@[simp] theorem startFrame_gotWord (d : Decoder) : (startFrame d).gotWord = d.gotWord := rfl
@[simp] theorem startFrame_lastActivity (d : Decoder) : (startFrame d).lastActivity = d.lastActivity := rfl

/-! ## `shiftIn` -/

@[simp] theorem shiftIn_control (b : Bool) (d : Decoder) : (shiftIn b d).control = d.control := rfl
@[simp] theorem shiftIn_expectedBits (b : Bool) (d : Decoder) : (shiftIn b d).expectedBits = d.expectedBits := rfl
@[simp] theorem shiftIn_value (b : Bool) (d : Decoder) : (shiftIn b d).value = (d.value <<< 1) ||| (if b then 1#16 else 0#16) := rfl
@[simp] theorem shiftIn_bitCount (b : Bool) (d : Decoder) : (shiftIn b d).bitCount = d.bitCount + 1#5 := rfl
@[simp] theorem shiftIn_sawPreamble (b : Bool) (d : Decoder) : (shiftIn b d).sawPreamble = d.sawPreamble := rfl
@[simp] theorem shiftIn_gotByte (b : Bool) (d : Decoder) : (shiftIn b d).gotByte = d.gotByte := rfl
@[simp] theorem shiftIn_gotWord (b : Bool) (d : Decoder) : (shiftIn b d).gotWord = d.gotWord := rfl
@[simp] theorem shiftIn_lastActivity (b : Bool) (d : Decoder) : (shiftIn b d).lastActivity = d.lastActivity := rfl

/-! ## `present` -/

@[simp] theorem present_config (o : Offer) (s : State) : (present o s).config = s.config := rfl
@[simp] theorem present_dec (o : Offer) (s : State) : (present o s).dec = s.dec := rfl
@[simp] theorem present_resPending (o : Offer) (s : State) : (present o s).resPending = s.resPending := rfl
@[simp] theorem present_txPending (o : Offer) (s : State) : (present o s).txPending = s.txPending := rfl
@[simp] theorem present_batchOpen (o : Offer) (s : State) : (present o s).batchOpen = s.batchOpen := rfl
@[simp] theorem present_pinNow (o : Offer) (s : State) : (present o s).pinNow = o.now % 2 ^ s.config.tsW := rfl
@[simp] theorem present_pinLast (o : Offer) (s : State) : (present o s).pinLast = o.last := rfl
@[simp] theorem present_ops (o : Offer) (s : State) : (present o s).ops = s.ops := rfl
@[simp] theorem present_turns (o : Offer) (s : State) : (present o s).turns = s.turns := rfl
@[simp] theorem present_results (o : Offer) (s : State) : (present o s).results = s.results := rfl
@[simp] theorem present_sequences (o : Offer) (s : State) : (present o s).sequences = s.sequences := rfl
@[simp] theorem present_releases (o : Offer) (s : State) : (present o s).releases = s.releases := rfl

/-! ## `accept` -/

@[simp] theorem accept_config (s : State) : (accept s).config = s.config := rfl
@[simp] theorem accept_dec (s : State) : (accept s).dec = s.dec := rfl
@[simp] theorem accept_resPending (s : State) : (accept s).resPending = s.resPending := rfl
@[simp] theorem accept_txPending (s : State) : (accept s).txPending = s.txPending := rfl
@[simp] theorem accept_batchOpen (s : State) : (accept s).batchOpen = s.batchOpen := rfl
@[simp] theorem accept_pinNow (s : State) : (accept s).pinNow = s.pinNow := rfl
@[simp] theorem accept_pinLast (s : State) : (accept s).pinLast = s.pinLast := rfl
@[simp] theorem accept_ops (s : State) : (accept s).ops = s.ops.tail := rfl
@[simp] theorem accept_turns (s : State) : (accept s).turns = s.turns := rfl
@[simp] theorem accept_results (s : State) : (accept s).results = s.results := rfl
@[simp] theorem accept_sequences (s : State) : (accept s).sequences = s.sequences := rfl
@[simp] theorem accept_releases (s : State) : (accept s).releases = s.releases := rfl

/-! ## `noteRecord` -/

@[simp] theorem noteRecord_config (s : State) : (noteRecord s).config = s.config := rfl
@[simp] theorem noteRecord_dec (s : State) : (noteRecord s).dec = s.dec := rfl
@[simp] theorem noteRecord_resPending (s : State) : (noteRecord s).resPending = s.resPending := rfl
@[simp] theorem noteRecord_txPending (s : State) : (noteRecord s).txPending = s.txPending := rfl
@[simp] theorem noteRecord_batchOpen (s : State) : (noteRecord s).batchOpen = !s.pinLast := rfl
@[simp] theorem noteRecord_pinNow (s : State) : (noteRecord s).pinNow = s.pinNow := rfl
@[simp] theorem noteRecord_pinLast (s : State) : (noteRecord s).pinLast = s.pinLast := rfl
@[simp] theorem noteRecord_ops (s : State) : (noteRecord s).ops = s.ops := rfl
@[simp] theorem noteRecord_turns (s : State) : (noteRecord s).turns = s.turns := rfl
@[simp] theorem noteRecord_results (s : State) : (noteRecord s).results = s.results := rfl
@[simp] theorem noteRecord_sequences (s : State) : (noteRecord s).sequences = s.sequences := rfl
@[simp] theorem noteRecord_releases (s : State) : (noteRecord s).releases = if s.pinLast then s.releases + 1 else s.releases := rfl

/-! ## `resetBlock` -/

@[simp] theorem resetBlock_config (s : State) : (resetBlock s).config = s.config := rfl
@[simp] theorem resetBlock_dec (s : State) : (resetBlock s).dec = Decoder.reset := rfl
@[simp] theorem resetBlock_resPending (s : State) : (resetBlock s).resPending = none := rfl
@[simp] theorem resetBlock_txPending (s : State) : (resetBlock s).txPending = none := rfl
@[simp] theorem resetBlock_batchOpen (s : State) : (resetBlock s).batchOpen = false := rfl
@[simp] theorem resetBlock_pinNow (s : State) : (resetBlock s).pinNow = s.pinNow := rfl
@[simp] theorem resetBlock_pinLast (s : State) : (resetBlock s).pinLast = s.pinLast := rfl
@[simp] theorem resetBlock_ops (s : State) : (resetBlock s).ops = s.ops := rfl
@[simp] theorem resetBlock_turns (s : State) : (resetBlock s).turns = s.turns := rfl
@[simp] theorem resetBlock_results (s : State) : (resetBlock s).results = s.results := rfl
@[simp] theorem resetBlock_sequences (s : State) : (resetBlock s).sequences = s.sequences := rfl
@[simp] theorem resetBlock_releases (s : State) : (resetBlock s).releases = if s.batchOpen then s.releases + 1 else s.releases := rfl

/-! ## `afterRecord` -/

@[simp] theorem afterRecord_config (s : State) (d : Decoder) (res : Option Result) : (afterRecord s d res).config = s.config := rfl
@[simp] theorem afterRecord_dec (s : State) (d : Decoder) (res : Option Result) : (afterRecord s d res).dec = d := rfl
@[simp] theorem afterRecord_resPending (s : State) (d : Decoder) (res : Option Result) : (afterRecord s d res).resPending = res := rfl
@[simp] theorem afterRecord_txPending (s : State) (d : Decoder) (res : Option Result) : (afterRecord s d res).txPending = s.txPending := rfl
@[simp] theorem afterRecord_batchOpen (s : State) (d : Decoder) (res : Option Result) : (afterRecord s d res).batchOpen = !s.pinLast := rfl
@[simp] theorem afterRecord_pinNow (s : State) (d : Decoder) (res : Option Result) : (afterRecord s d res).pinNow = s.pinNow := rfl
@[simp] theorem afterRecord_pinLast (s : State) (d : Decoder) (res : Option Result) : (afterRecord s d res).pinLast = s.pinLast := rfl
@[simp] theorem afterRecord_ops (s : State) (d : Decoder) (res : Option Result) : (afterRecord s d res).ops = s.ops.tail := rfl
@[simp] theorem afterRecord_turns (s : State) (d : Decoder) (res : Option Result) : (afterRecord s d res).turns = s.turns := rfl
@[simp] theorem afterRecord_results (s : State) (d : Decoder) (res : Option Result) : (afterRecord s d res).results = s.results := rfl
@[simp] theorem afterRecord_sequences (s : State) (d : Decoder) (res : Option Result) : (afterRecord s d res).sequences = s.sequences := rfl
@[simp] theorem afterRecord_releases (s : State) (d : Decoder) (res : Option Result) : (afterRecord s d res).releases = if s.pinLast then s.releases + 1 else s.releases := rfl

/-! ## `idleCheck` -/

@[simp] theorem idleCheck_control (c : Config) (now : Nat) (d : Decoder) :
    (idleCheck c now d).control = d.control := by
  unfold idleCheck; split <;> simp_all
@[simp] theorem idleCheck_expectedBits (c : Config) (now : Nat) (d : Decoder) :
    (idleCheck c now d).expectedBits = d.expectedBits := by
  unfold idleCheck; split <;> simp_all
@[simp] theorem idleCheck_value (c : Config) (now : Nat) (d : Decoder) :
    (idleCheck c now d).value = d.value := by
  unfold idleCheck; split <;> simp_all
@[simp] theorem idleCheck_bitCount (c : Config) (now : Nat) (d : Decoder) :
    (idleCheck c now d).bitCount = d.bitCount := by
  unfold idleCheck; split <;> simp_all
@[simp] theorem idleCheck_sawPreamble (c : Config) (now : Nat) (d : Decoder) :
    (idleCheck c now d).sawPreamble = d.sawPreamble := by
  unfold idleCheck; split <;> simp_all
@[simp] theorem idleCheck_gotByte (c : Config) (now : Nat) (d : Decoder) :
    (idleCheck c now d).gotByte = (d.gotByte && !isBoundary c now d) := by
  unfold idleCheck; split <;> simp_all
@[simp] theorem idleCheck_gotWord (c : Config) (now : Nat) (d : Decoder) :
    (idleCheck c now d).gotWord = (d.gotWord && !isBoundary c now d) := by
  unfold idleCheck; split <;> simp_all
@[simp] theorem idleCheck_lastActivity (c : Config) (now : Nat) (d : Decoder) :
    (idleCheck c now d).lastActivity = d.lastActivity := by
  unfold idleCheck; split <;> simp_all

/-! ## `takeResult` and `takeSequence` -/

@[simp] theorem takeResult_config (s : State) : (takeResult s).config = s.config := by
  unfold takeResult; split <;> simp_all
@[simp] theorem takeResult_dec (s : State) : (takeResult s).dec = s.dec := by
  unfold takeResult; split <;> simp_all
@[simp] theorem takeResult_resPending (s : State) : (takeResult s).resPending = none := by
  unfold takeResult; split <;> simp_all
@[simp] theorem takeResult_txPending (s : State) : (takeResult s).txPending = s.txPending := by
  unfold takeResult; split <;> simp_all
@[simp] theorem takeResult_batchOpen (s : State) : (takeResult s).batchOpen = s.batchOpen := by
  unfold takeResult; split <;> simp_all
@[simp] theorem takeResult_pinNow (s : State) : (takeResult s).pinNow = s.pinNow := by
  unfold takeResult; split <;> simp_all
@[simp] theorem takeResult_pinLast (s : State) : (takeResult s).pinLast = s.pinLast := by
  unfold takeResult; split <;> simp_all
@[simp] theorem takeResult_ops (s : State) : (takeResult s).ops = s.ops := by
  unfold takeResult; split <;> simp_all
@[simp] theorem takeResult_turns (s : State) : (takeResult s).turns = s.turns := by
  unfold takeResult; split <;> simp_all
@[simp] theorem takeResult_results (s : State) : (takeResult s).results = s.results ++ s.resPending.toList := by
  unfold takeResult; split <;> simp_all
@[simp] theorem takeResult_sequences (s : State) : (takeResult s).sequences = s.sequences := by
  unfold takeResult; split <;> simp_all
@[simp] theorem takeResult_releases (s : State) : (takeResult s).releases = s.releases := by
  unfold takeResult; split <;> simp_all
@[simp] theorem takeSequence_config (s : State) : (takeSequence s).config = s.config := by
  unfold takeSequence; split <;> simp_all
@[simp] theorem takeSequence_dec (s : State) : (takeSequence s).dec = s.dec := by
  unfold takeSequence; split <;> simp_all
@[simp] theorem takeSequence_resPending (s : State) : (takeSequence s).resPending = s.resPending := by
  unfold takeSequence; split <;> simp_all
@[simp] theorem takeSequence_txPending (s : State) : (takeSequence s).txPending = none := by
  unfold takeSequence; split <;> simp_all
@[simp] theorem takeSequence_batchOpen (s : State) : (takeSequence s).batchOpen = s.batchOpen := by
  unfold takeSequence; split <;> simp_all
@[simp] theorem takeSequence_pinNow (s : State) : (takeSequence s).pinNow = s.pinNow := by
  unfold takeSequence; split <;> simp_all
@[simp] theorem takeSequence_pinLast (s : State) : (takeSequence s).pinLast = s.pinLast := by
  unfold takeSequence; split <;> simp_all
@[simp] theorem takeSequence_ops (s : State) : (takeSequence s).ops = s.ops := by
  unfold takeSequence; split <;> simp_all
@[simp] theorem takeSequence_turns (s : State) : (takeSequence s).turns = s.turns := by
  unfold takeSequence; split <;> simp_all
@[simp] theorem takeSequence_results (s : State) : (takeSequence s).results = s.results := by
  unfold takeSequence; split <;> simp_all
@[simp] theorem takeSequence_sequences (s : State) : (takeSequence s).sequences = s.sequences ++ s.txPending.toList := by
  unfold takeSequence; split <;> simp_all
@[simp] theorem takeSequence_releases (s : State) : (takeSequence s).releases = s.releases := by
  unfold takeSequence; split <;> simp_all

end Sys2Proof.Laws
end

