-- ==== Sys2Proof/Laws/Ops.lean ====
section
/-!
SUPPORT. One lemma for each shared operation that says once everything it can do.
-/

namespace Sys2Proof.Laws

open Sys2Proof Sys2Proof.Machine Sys2Proof.Safety

/-- The idle check's difference, on the integers (41_decoder.md R122). -/
theorem elapsed_cast (c : Config) (now last : Nat) :
    (elapsed c now last : Int) = ((now : Int) - last) % ((2 ^ c.tsW : Nat) : Int) := by
  have h : ((2 ^ c.tsW : Nat) : Int) ≠ 0 := by exact_mod_cast (Nat.two_pow_pos c.tsW).ne'
  exact Int.toNat_of_nonneg (Int.emod_nonneg _ h)

/-- The time that passed over a span is the span modulo `2^TS_W` (60_exceptions.md R209). -/
theorem elapsed_add (c : Config) (last span : Nat) :
    elapsed c ((last + span) % 2 ^ c.tsW) last = span % 2 ^ c.tsW := by
  have h := elapsed_cast c ((last + span) % 2 ^ c.tsW) last
  rw [Int.natCast_mod, Int.emod_sub_emod] at h
  rw [show ((last + span : Nat) : Int) - last = span by push_cast; omega] at h
  exact_mod_cast h

/-- A boundary step, on the integers. -/
theorem isBoundary_iff (c : Config) (now : Nat) (d : Decoder) :
    isBoundary c now d = true ↔
      ((now : Int) - d.lastActivity) % ((2 ^ c.tsW : Nat) : Int) > c.idleWindow := by
  rw [isBoundary, decide_eq_true_iff, ← elapsed_cast]
  exact_mod_cast Iff.rfl

/-- A duration the encoder sends has `DUR_W` bits. -/
theorem sentDuration_lt (c : Config) (x : Int) : sentDuration c x < 2 ^ c.durW := by
  unfold sentDuration
  split
  · next h => exact h.2
  · exact Nat.mod_lt _ (Nat.two_pow_pos _)

/-- An exact duration of `DUR_W` bits is sent as it is. -/
theorem sentDuration_of_lt (c : Config) (d : Nat) (h : d < 2 ^ c.durW) : sentDuration c d = d := by
  simp [sentDuration, h]

/-- A difference that is not negative and fits is sent as it is. -/
theorem sentDuration_sub (c : Config) (a b : Nat) (hle : b ≤ a) (h : a < 2 ^ c.durW) :
    sentDuration c ((a : Int) - b) = a - b := by
  rw [← Int.ofNat_sub hle]
  exact sentDuration_of_lt c (a - b) (by omega)

/-- The idle check is idempotent: its own writes do not change whether it fires. -/
@[simp] theorem isBoundary_idleCheck (c : Config) (now : Nat) (d : Decoder) :
    isBoundary c now (idleCheck c now d) = isBoundary c now d := by
  simp [isBoundary]

/-- Everything the emission decision can do. -/
theorem emission_cases (d : Decoder) :
    (d.expectedBits = .bits8 ∧ d.gotByte = false ∧
      emission d = ({ d with gotByte := true }, some (.byte (d.value.extractLsb' 0 8)))) ∨
    (d.expectedBits = .bits16 ∧ d.gotByte = true ∧ d.gotWord = false ∧
      emission d = ({ d with gotWord := true }, some (.word d.value))) ∨
    ((d.expectedBits = .bits8 ∧ d.gotByte = true ∨ d.expectedBits = .bits16 ∧ d.gotByte = false ∨
        d.expectedBits = .bits16 ∧ d.gotByte = true ∧ d.gotWord = true) ∧
      emission d = (d, none)) := by
  unfold emission
  cases h : d.expectedBits <;> cases hb : d.gotByte <;> cases hw : d.gotWord <;> simp

/-- What a completion leaves, whatever the emission decision. -/
theorem completeFrame_fields (now : Nat) (d : Decoder) :
    (completeFrame now d).1.control = .seekingStart ∧
    (completeFrame now d).1.expectedBits = d.expectedBits ∧
    (completeFrame now d).1.value = 0#16 ∧ (completeFrame now d).1.bitCount = 0#5 ∧
    (completeFrame now d).1.sawPreamble = d.sawPreamble ∧
    (completeFrame now d).1.lastActivity = now := by
  unfold completeFrame
  rcases emission_cases { d with lastActivity := now } with ⟨-, -, h⟩ | ⟨-, -, -, h⟩ | ⟨-, h⟩ <;>
    simp [h]

/-- `collectBit`: the frame goes on, or it completes. -/
theorem collectBit_cases (now : Nat) (b : Bool) (d : Decoder) :
    (d.bitCount + 1#5 ≠ frameBits d.expectedBits ∧ collectBit now b d = (shiftIn b d, none)) ∨
    (d.bitCount + 1#5 = frameBits d.expectedBits ∧
      collectBit now b d = completeFrame now (shiftIn b d)) := by
  by_cases h : d.bitCount + 1#5 = frameBits d.expectedBits <;> simp [collectBit, h]

/-- A start record's own bit never completes the frame it begins. -/
theorem collectBit_startFrame (now : Nat) (b : Bool) (d : Decoder) :
    collectBit now b (startFrame d) = (shiftIn b (startFrame d), none) := by
  rcases collectBit_cases now b (startFrame d) with ⟨-, h⟩ | ⟨h, -⟩
  · exact h
  · cases hs : d.sawPreamble <;> simp [hs, frameBits] at h

/-- `lowHalf` answers nothing exactly for two `H` halves. -/
theorem lowHalf_eq_none_iff (r : Record) :
    lowHalf r = none ↔ r.half0.level = .high ∧ r.half1.level = .high := by
  unfold lowHalf
  cases r.half0.level <;> cases r.half1.level <;> simp

/-- Everything a PULSE step can do, one case for each way it ends (41_decoder.md R121). -/
theorem pulseStep_cases (c : Config) (r : Record) (now : Nat) (d : Decoder) :
    -- the preamble rule ends the step, or nothing follows it
    (d.control = .seekingStart ∧ preRec c r = true ∧
      (c.preFallthrough = false ∨ startRec c r = false) ∧
      pulseStep c r now d = (setPreamble (idleCheck c now d), none)) ∨
    -- the start rule, its own low half a bit with START_FALLTHROUGH
    (startRec c r = true ∧
      (d.control = .collectingBits ∨ preRec c r = false ∨ c.preFallthrough = true) ∧
      ∃ d1, (d1 = if d.control = .seekingStart ∧ preRec c r = true
              then setPreamble (idleCheck c now d) else idleCheck c now d) ∧
        ((c.startFallthrough = false ∨ lowHalf r = none) ∧
            pulseStep c r now d = (startFrame d1, none) ∨
          c.startFallthrough = true ∧ ∃ ld, lowHalf r = some ld ∧
            pulseStep c r now d = (shiftIn (bitOf c ld) (startFrame d1), none))) ∨
    -- discarded while seeking
    (d.control = .seekingStart ∧ preRec c r = false ∧ startRec c r = false ∧
      pulseStep c r now d = (idleCheck c now d, none)) ∨
    -- no low half
    (d.control = .collectingBits ∧ startRec c r = false ∧ lowHalf r = none ∧
      pulseStep c r now d = (idleCheck c now d, none)) ∨
    -- a bit
    (d.control = .collectingBits ∧ startRec c r = false ∧ ∃ ld, lowHalf r = some ld ∧
      pulseStep c r now d = collectBit now (bitOf c ld) (idleCheck c now d)) := by
  cases hc : d.control <;> cases hp : preRec c r <;> cases hs : startRec c r <;>
    cases hpf : c.preFallthrough <;> cases hsf : c.startFallthrough <;>
    cases hl : lowHalf r <;>
    simp [pulseStep, startRules, bitRules, collectBit_startFrame, hc, hp, hs, hpf, hsf, hl]

/-- PULSE at a ready port: the record is transferred. -/
theorem execPulse_ready (r : Record) (s : State) (h : s.resPending = none) :
    execPulse r s = .next (afterRecord s (pulseStep s.config r s.pinNow s.dec).1
      (pulseStep s.config r s.pinNow s.dec).2) := by
  rw [execPulse, if_pos (by simp [pinReady, h])]
  rfl

/-- PULSE at a busy port: it waits. -/
theorem execPulse_busy (r : Record) (s : State) (x : Result) (h : s.resPending = some x) :
    execPulse r s = .next s := by
  simp [execPulse, pinReady, h]

/-- Everything PULSE can do. -/
theorem execPulse_cases (r : Record) (s t : State) (h : execPulse r s = .next t) :
    (s.resPending ≠ none ∧ t = s) ∨
    (s.resPending = none ∧ t = afterRecord s (pulseStep s.config r s.pinNow s.dec).1
      (pulseStep s.config r s.pinNow s.dec).2) := by
  cases hp : s.resPending with
  | none => rw [execPulse_ready r s hp] at h; exact .inr ⟨rfl, by injection h with h; exact h.symm⟩
  | some x => rw [execPulse_busy r s x hp] at h; exact .inl ⟨by simp, by injection h with h; exact h.symm⟩

/-- Everything ENCODE can do. -/
theorem execEncode_cases (v : Byte) (s t : State) (h : execEncode v s = .next t) :
    (s.txPending ≠ none ∧ t = s) ∨
    (s.txPending = none ∧
      t = { s with txPending := some (encodeSeq s.config v), ops := s.ops.tail }) := by
  cases hp : s.txPending <;> simp [execEncode, encReady, hp, accept] at h ⊢ <;> exact h.symm

/-- Everything RESET can do. -/
theorem execReset_eq (s : State) : execReset s = .next (accept (resetBlock s)) := rfl

/-- Everything a step can do: it waits, an agent of the environment moves, an operation runs, or a
reserved word is refused. -/
theorem step_cases (s : State) :
    (s.turns = [] ∧ step s = .next s) ∨
    (∃ ts, s.turns = .operation :: ts ∧ s.ops = [] ∧ step s = .next { s with turns := ts }) ∨
    (∃ ts o os i, s.turns = .operation :: ts ∧ s.ops = o :: os ∧ decodeNumber s.config.durW o.word = some i ∧
      step s = exec i (present o { s with turns := ts })) ∨
    (∃ ts o os, s.turns = .operation :: ts ∧ s.ops = o :: os ∧ decodeNumber s.config.durW o.word = none ∧
      step s = .refused (.reservedEncoding o.word)) ∨
    (∃ ts, s.turns = .consumer :: ts ∧ step s = .next (takeResult { s with turns := ts })) ∨
    (∃ ts, s.turns = .sink :: ts ∧ step s = .next (takeSequence { s with turns := ts })) ∨
    (∃ ts, s.turns = .rst :: ts ∧ step s = .next (resetBlock { s with turns := ts })) := by
  unfold step
  rcases ht : s.turns with _ | ⟨_ | _ | _ | _, ts⟩
  · simp
  · rcases ho : s.ops with _ | ⟨o, os⟩
    · simp
    · cases hd : decodeNumber s.config.durW o.word <;> simp [hd]
  · simp
  · simp
  · simp

end Sys2Proof.Laws
end

