-- ==== Sys2Proof/Laws/PerInstr.lean ====
section
/-!
SUPPORT. The per-instruction family `EncodesSelector`: the word of an operation carries the selector of
its port (30_encoding.md R72), at every width of durations.
-/

namespace Sys2Proof.Laws

open Sys2Proof

/-- The selector of an operation's port (30_encoding.md R72). -/
def selectorOf : Instr → BitVec 2
  | .pulse _ => 0#2
  | .encode _ => 1#2
  | .reset => 2#2

/-- The word of an operation has its port's selector above the payload, in bits 35:34 at
`DUR_W = 16`. -/
def EncodesSelector.Statement (i : Instr) : Prop :=
  ∀ durW, (encode durW i).extractLsb' (payloadBits durW) 2 = selectorOf i

/-- What stands above the low bits of a concatenation. -/
theorem extract_append {a b : Nat} (x : BitVec a) (y : BitVec b) : (x ++ y).extractLsb' b a = x := by
  apply BitVec.eq_of_toNat_eq
  rw [BitVec.extractLsb'_toNat, append_toNat, Nat.shiftRight_eq_div_pow, Nat.mul_comm,
    Nat.mul_add_div (Nat.two_pow_pos b), Nat.div_eq_of_lt y.isLt, Nat.add_zero, Nat.mod_eq_of_lt x.isLt]

theorem EncodesSelector.pulse (r : Record) : EncodesSelector.Statement (.pulse r) :=
  fun _ => extract_append _ _

theorem EncodesSelector.encode (v : Byte) : EncodesSelector.Statement (.encode v) :=
  fun _ => extract_append _ _

theorem EncodesSelector.reset : EncodesSelector.Statement .reset := fun _ => extract_append _ _

end Sys2Proof.Laws
end

