-- ==== Sys2Proof/Laws/Run.lean ====
section
/-!
SUPPORT. Runs of several steps of the machine, one step at a time.
-/

namespace Sys2Proof.Laws

open Sys2Proof.Machine

/-- A run whose first step answers a next state goes on from there, on any machine. -/
theorem core_run_next (M : Host.Core) (n : Nat) (a b : M.State) (h : M.step a = .next b) :
    M.run (n + 1) a = M.run n b := by
  rw [Host.Core.run, h]

/-- A run whose first step is refused is refused, on any machine. -/
theorem core_run_refused (M : Host.Core) (n : Nat) (a : M.State) (r : M.Refusal)
    (h : M.step a = .refused r) : M.run (n + 1) a = .refused r := by
  rw [Host.Core.run, h]

/-- A run of this machine whose first step answers a next state goes on from there. -/
theorem run_next (n : Nat) (a b : State) (h : step a = .next b) :
    Host.Core.run Sys2Proof.core (n + 1) a = Host.Core.run Sys2Proof.core n b :=
  core_run_next Sys2Proof.core n a b h

/-- A run of this machine whose first step is refused is refused. -/
theorem run_refused (n : Nat) (a : State) (r : Refusal) (h : step a = .refused r) :
    Host.Core.run Sys2Proof.core (n + 1) a = .refused r :=
  core_run_refused Sys2Proof.core n a r h

end Sys2Proof.Laws
end

