-- ==== Sys2Proof/Tests/Slice0.lean ====
section
/-!
SUPPORT. The model's own tests: expected values are those of spec/95_test_vectors.md (each test names its
vector), never the model's own answers; and, for each statement with hypotheses, a witness that meets
them.
-/

namespace Sys2Proof.Tests

open Sys2Proof Sys2Proof.Machine Sys2Proof.Safety

/-! ## Helpers -/

/-- A record from its levels and durations. -/
def rec4 (l0 : Level) (d0 : Nat) (l1 : Level) (d1 : Nat) : Record :=
  { half0 := { level := l0, dur := d0 }, half1 := { level := l1, dur := d1 } }

/-- `BIT1`, `BIT0` and a record without a low half. -/
def bit1 : Record := rec4 .low 4000 .high 8100

def bit0 : Record := rec4 .low 8000 .high 4100

def noLow : Record := rec4 .high 9000 .high 9000

/-- A collecting decoder. -/
def collecting (w : FrameWidth) (value : Word16) (count : BitCount) (gb gw : Bool) (last : Nat) : Decoder :=
  { control := .collectingBits, expectedBits := w, value := value, bitCount := count,
    sawPreamble := false, gotByte := gb, gotWord := gw, lastActivity := last }

/-- The reset state with this decoder and this time at the pulse port. -/
def at_ (d : Decoder) (now : Nat) : State := { State.reset with dec := d, pinNow := now }

/-- The decoder and the presented result of a next state. -/
def decOf : Host.Outcome State Fault Refusal → Option (Decoder × Option Result)
  | .next t => some (t.dec, t.resPending)
  | .fault _ => none
  | .refused _ => none

/-- The sequence offered in a next state, as record words. -/
def wordsOf : Host.Outcome State Fault Refusal → Option (List Nat)
  | .next t => (txWords t).map (·.map (·.toNat))
  | .fault _ => none
  | .refused _ => none

/-! ## Well-formedness -/

/-- OV10: an ENCODE word with `ow[33:8]` nonzero. -/
theorem test_illegal_encode_word : legalWord 0x400000100#36 = false := by decide

/-- OV13: a RESET word with `ow[33:0]` nonzero. -/
theorem test_illegal_reset_word : legalWord 0x800000001#36 = false := by decide

/-- OV15: selector 11. -/
theorem test_illegal_selector : legalWord 0xC00000000#36 = false := by decide

theorem test_instr_wellFormed :
    (Instr.pulse bit1).wellFormed 16 = true ∧ (Instr.encode 0#8).wellFormed 16 = true ∧
      Instr.reset.wellFormed 16 = true := by decide

/-- A duration of 17 bits is none of `DUR_W = 16`, and one of 14 bits none of `DUR_W = 13` (00_scope.md
R3). -/
theorem test_ill_formed_operand :
    (Instr.pulse (rec4 .low 65536 .high 0)).wellFormed 16 = false ∧
      (Instr.pulse (rec4 .low 0 .high 8192)).wellFormed 13 = false := by decide

/-- 40_classifier.md R101 (a) fails when a constant or the idle window does not fit in its width. -/
theorem test_ill_formed_widths :
    { defaultConfig with startMax := 65536 }.wellFormed = false ∧
      { defaultConfig with durW := 14 }.wellFormed = false ∧
      { defaultConfig with tsW := 16 }.wellFormed = false := by decide

theorem test_default_config : defaultConfig.wellFormed = true := by decide

/-- 40_classifier.md R101 (b) fails when the threshold is not above BIT1_LOW. -/
theorem test_ill_formed_bits : { defaultConfig with bitThreshold := 4000 }.wellFormed = false := by
  decide

/-- R101 (d) fails when the merged synchronization high is not inside the start window. -/
theorem test_ill_formed_sync : { defaultConfig with sync2 := 3000 }.wellFormed = false := by decide

/-- R101 (e) fails when a bit record's high duration is inside the start window. -/
theorem test_ill_formed_high : { defaultConfig with bitPeriod := 34000 }.wellFormed = false := by decide

/-! ## Decoding: words written out from 30_encoding.md R70 and R72 -/

/-- OV4: selector 00, `l0 = 0`, `d0 = 10000`, `l1 = 1`, `d1 = 30000`. -/
theorem test_decode_pulse :
    decodeNumber 16 0b00_0_0010011100010000_1_0111010100110000 =
      some (.pulse (rec4 .low 10000 .high 30000)) := by decide

/-- OV7: selector 01, 26 zeros, `V = 0xA5`. -/
theorem test_decode_encode :
    decodeNumber 16 0b01_00000000000000000000000000_10100101 = some (.encode 0xA5#8) := by decide

/-- OV12: selector 10, 34 zeros. -/
theorem test_decode_reset :
    decodeNumber 16 0b10_0000000000000000000000000000000000 = some .reset := by decide

/-- OV2: every bit of a PULSE word is used. -/
theorem test_decode_all_ones :
    decodeTableWord 40 0x3FFFFFFFF = some (.pulse (rec4 .high 65535 .high 65535)) := by decide

/-- OV11, OV14, OV16. -/
theorem test_decode_reserved :
    decodeTableWord 40 0x7FFFFFFFF = none ∧ decodeTableWord 40 0xA00000000 = none ∧
      decodeTableWord 40 0xFFFFFFFFF = none := by decide

/-- 30_encoding.md R70 at `DUR_W = 20`: PRE is `l0 = 0`, `d0 = 1500` in bits 40:21, `l1 = 1` in bit 20,
`d1 = 200` in bits 19:0; the selector is in bits 43:42 (assumption 4). -/
theorem test_decode_wider :
    decodeNumber 20 (1500 * 2 ^ 21 + 2 ^ 20 + 200) = some (.pulse (rec4 .low 1500 .high 200)) ∧
      decodeNumber 20 (2 ^ 42 + 0xA5) = some (.encode 0xA5#8) ∧
      decodeNumber 20 (2 * 2 ^ 42) = some .reset ∧ decodeNumber 20 (3 * 2 ^ 42) = none := by decide

/-- BIT1 of 30_encoding.md R85. -/
theorem test_encode_bit1 : (encode 16 (.pulse bit1)).toNat = 0x01F411FA4 := by decide

/-! ## The operations -/

/-- DV33: the idle check clears the flags first, then the byte is reported. -/
theorem test_pulse_idle_then_byte :
    decOf (exec (.pulse bit1) (at_ (collecting .bits8 0x52#16 7#5 true false 0) 80001)) =
      some ({ Decoder.reset with gotByte := true, lastActivity := 80001 }, some (.byte 0xA5#8)) := by
  decide

/-- 60_exceptions.md R209 at `TS_W = 20`: 80001 µs across the wrap clear the flags, and 2^20 µs more
are not seen. -/
theorem test_pulse_wraps :
    let c := { defaultConfig with tsW := 20 }
    let d := { Decoder.reset with gotByte := true, gotWord := true, lastActivity := 1048000 }
    let s := { at_ d 79425 with config := c }
    let u := { at_ d 79424 with config := c }
    decOf (exec (.pulse noLow) s) = some ({ Decoder.reset with lastActivity := 1048000 }, none) ∧
      decOf (exec (.pulse noLow) u) = some (d, none) := by decide

/-- DV36: the word 0x1234 after a byte. -/
theorem test_pulse_word :
    decOf (exec (.pulse bit0) (at_ (collecting .bits16 0x091A#16 15#5 true false 1000) 5000)) =
      some ({ Decoder.reset with expectedBits := .bits16, gotByte := true, gotWord := true, lastActivity := 5000 },
        some (.word 0x1234#16)) := by decide

/-- EV3: Encode(0xA5). -/
theorem test_encode_a5 :
    wordsOf (exec (.encode 0xA5#8) State.reset) =
      some [0x24E212710, 0x227111388, 0x01F411FA4, 0x03E811004, 0x01F411FA4,
        0x03E811004, 0x03E811004, 0x01F411FA4, 0x03E811004, 0x01F411FA4] := by decide

/-- 95_test_vectors.md section 2.3: the state after ENCODE is the state before. -/
theorem test_encode_keeps_decoder :
    decOf (exec (.encode 0x01#8) (at_ (collecting .bits8 5#16 3#5 true false 7) 9)) =
      some (collecting .bits8 5#16 3#5 true false 7, none) := by decide

/-- RV2. -/
theorem test_reset :
    decOf (exec .reset (at_ (collecting .bits16 0x1234#16 13#5 true true 4294967295) 5)) =
      some ({ control := .seekingStart, expectedBits := .bits8, value := 0#16, bitCount := 0#5,
              sawPreamble := false, gotByte := false, gotWord := false, lastActivity := 0 }, none) := by
  decide

/-- DV2, fetched: START as the first operation after reset. -/
theorem test_fetch_start :
    decOf (step (State.reset.withFetchWord 40 0x04E217530)) =
      some (collecting .bits8 0#16 0#5 false false 0, none) := by decide

/-! ## Witnesses: the hypotheses of each statement are met -/

/-- The widest durations, at the default width and at another. -/
theorem witness_DecodeEncodeRoundTrip :
    (Instr.pulse (rec4 .high 65535 .low 65535)).wellFormed 16 = true ∧
      (Instr.pulse (rec4 .high 4194303 .low 0)).wellFormed 22 = true := by decide

theorem witness_EncodeDecodeRoundTrip :
    decode 16 (BitVec.ofNat (opBits 16) 0x4000000A5) = some (.encode 0xA5#8) := by decide

theorem witness_PulseWordOperands :
    0x3FFFFFFFF < 2 ^ (2 * (1 + 16)) ∧ 0 < 2 ^ (2 * (1 + 0)) := by decide

theorem witness_EncodeAndResetWordsDecode :
    ((0x4000000FF#36 : BitVec 36).toNat / 2 ^ 34 = 1 ∧ (0x4000000FF#36 : BitVec 36).toNat % 2 ^ 34 / 2 ^ 8 = 0) ∧
    ((0x800000000#36 : BitVec 36).toNat / 2 ^ 34 = 2 ∧ (0x800000000#36 : BitVec 36).toNat % 2 ^ 34 = 0) := by
  decide

/-- The threshold's two sides, at 5999 and 6000, and a low half in either place. -/
theorem witness_BitThreshold :
    (5999 : Nat) < 6000 ∧ 6000 ≤ (6000 : Nat) ∧ lowHalf bit1 = some 4000 ∧
      lowHalf (rec4 .high 1 .low 2) = some 2 := by decide

/-- The first difference above the window, 80001 µs, at `TS_W = 32`, and across the wrap at
`TS_W = 20`. -/
theorem witness_IdleCheckComesFirst :
    let s := at_ (collecting .bits8 5#16 3#5 true true 1000) 81001
    let n := { at_ (collecting .bits8 5#16 3#5 true true 1048000) 79425 with
      config := { defaultConfig with tsW := 20 } }
    (((s.pinNow : Int) - s.dec.lastActivity) % (2 ^ s.config.tsW : Nat) > s.config.idleWindow ∧
      s.resPending = none) ∧
    (((n.pinNow : Int) - n.dec.lastActivity) % (2 ^ n.config.tsW : Nat) > n.config.idleWindow ∧
      n.resPending = none) := by decide

/-- The longest span the second clause speaks of. -/
theorem witness_IdleCheckWrapsAround : 80000 ≤ defaultConfig.idleWindow := by decide

/-- Both reasons the start test is not made, at the window's lower boundary, and a collecting decoder. -/
theorem witness_PreambleRecordSetsFlag :
    let s := at_ Decoder.reset 1000
    let f := { s with config := { defaultConfig with preFallthrough := true } }
    (s.resPending = none ∧ s.dec.control = .seekingStart ∧
      preRec s.config (rec4 .low 801 .high 30000) = true ∧ s.config.preFallthrough = false) ∧
    (f.resPending = none ∧ f.dec.control = .seekingStart ∧
      preRec f.config (rec4 .low 2999 .high 200) = true ∧
      startRec f.config (rec4 .low 2999 .high 200) = false) ∧
    ((at_ (collecting .bits8 5#16 3#5 false false 0) 0).dec.control = .collectingBits ∧
      (at_ (collecting .bits8 5#16 3#5 false false 0) 0).dec.sawPreamble = false) := by decide

/-- Each way the start rule is reached, at the window's boundaries. -/
theorem witness_StartRecordBeginsFrame :
    let c := at_ (collecting .bits8 5#16 3#5 false false 0) 0
    let s := at_ Decoder.reset 1000
    let f := { s with config := { defaultConfig with preFallthrough := true } }
    (c.resPending = none ∧ startRec c.config (rec4 .high 28001 .low 5000) = true ∧
      c.dec.control = .collectingBits) ∧
    (s.resPending = none ∧ startRec s.config (rec4 .high 31999 .low 5000) = true ∧
      preRec s.config (rec4 .high 31999 .low 5000) = false) ∧
    (f.resPending = none ∧ startRec f.config (rec4 .low 1500 .high 30000) = true ∧
      f.config.preFallthrough = true) := by decide

/-- A record that is neither, next to the windows, and a preamble record under PRE_FALLTHROUGH. -/
theorem witness_SeekingDiscardsOtherRecords :
    let s := at_ Decoder.reset 1000
    let f := { s with config := { defaultConfig with preFallthrough := true } }
    (s.resPending = none ∧ s.dec.control = .seekingStart ∧
      startRec s.config (rec4 .low 800 .high 28000) = false ∧
      preRec s.config (rec4 .low 800 .high 28000) = false) ∧
    (f.resPending = none ∧ f.dec.control = .seekingStart ∧
      startRec f.config prePulse = false ∧ f.config.preFallthrough = true) := by decide

theorem witness_RecordWithoutLowHalfIsDiscarded :
    let s := at_ (collecting .bits8 5#16 3#5 false false 0) 1000
    s.resPending = none ∧ s.dec.control = .collectingBits ∧ startRec s.config noLow = false ∧
      noLow.half0.level = .high ∧ noLow.half1.level = .high := by decide

/-- The last bit before the frame's last one. -/
theorem witness_BitIsShiftedIn :
    let s := at_ (collecting .bits16 5#16 14#5 false false 0) 1000
    s.resPending = none ∧ s.dec.control = .collectingBits ∧ startRec s.config bit0 = false ∧
      lowHalf bit0 = some 8000 ∧ s.dec.bitCount + 1#5 ≠ frameBits s.dec.expectedBits := by decide

/-- The last bit of a byte frame and of a word frame. -/
theorem witness_LastBitCompletesFrame :
    let b := at_ (collecting .bits8 0x52#16 7#5 false false 0) 5000
    let w := at_ (collecting .bits16 0x091A#16 15#5 true false 1000) 5000
    (b.resPending = none ∧ b.dec.control = .collectingBits ∧ startRec b.config bit1 = false ∧
      lowHalf bit1 = some 4000 ∧ b.dec.bitCount + 1#5 = frameBits b.dec.expectedBits) ∧
    (w.resPending = none ∧ w.dec.control = .collectingBits ∧ startRec w.config bit0 = false ∧
      lowHalf bit0 = some 8000 ∧ w.dec.bitCount + 1#5 = frameBits w.dec.expectedBits) := by decide

theorem witness_PulseWaitsForConsumer :
    { State.reset with resPending := some (.byte 0xA5#8) }.resPending = some (.byte 0xA5#8) := by decide

theorem witness_LastRecordReleasesBatch : State.reset.resPending = none := by decide

theorem witness_TimeStampOnlyAtCompletion :
    exec (.pulse noLow) State.reset =
      .next { State.reset with batchOpen := true } := by rfl

/-- DV31: a byte is presented. -/
theorem witness_ResultOnlyAtCompletion :
    let s := at_ (collecting .bits8 0x52#16 7#5 false false 0) 5000
    s.resPending = none ∧
      decOf (exec (.pulse bit1) s) =
        some ({ Decoder.reset with gotByte := true, lastActivity := 5000 }, some (.byte 0xA5#8)) := by
  decide

theorem witness_RestartBeginsByteFrame :
    let s := at_ (collecting .bits16 0x1F#16 5#5 false false 0) 1000
    DecoderInv s.dec ∧ s.resPending = none ∧ s.dec.control = .collectingBits ∧
      startRec s.config startPulse = true := by
  unfold DecoderInv; decide

theorem witness_StepClassesFollowTable :
    defaultConfig.preFallthrough = false ∧ defaultConfig.startFallthrough = false := by decide

/-- A transaction from reset, and one that begins at a boundary step. -/
theorem witness_AtMostOneResultOfEachKind :
    (Decoder.reset.gotByte = false ∧ Decoder.reset.gotWord = false ∧
      withinTransaction defaultConfig [(startPulse, 80000)] Decoder.reset) ∧
    (isBoundary defaultConfig 80001 Decoder.reset = true ∧
      withinTransaction defaultConfig [] (pulseStep defaultConfig startPulse 80001 Decoder.reset).1) := by
  exact ⟨⟨by decide, by decide, by decide, trivial⟩, by decide, trivial⟩

/-- A byte and then a word after a boundary step: the last bits of a byte frame at a boundary, then a
whole word frame. -/
def byteThenWord : List (Record × Nat) :=
  (frame16 0x1234#16).map fun r => (r, 90000)

theorem witness_WordNeedsByteAfterBoundary :
    isBoundary defaultConfig 90000 (collecting .bits8 0x52#16 7#5 false false 0) = true ∧
    (runPulses defaultConfig ((bit1, 90000) :: byteThenWord)
      (collecting .bits8 0x52#16 7#5 false false 0)).2 = [.byte 0xA5#8] ++ .word 0x1234#16 :: [] := by
  decide

/-- Seven and eight bit records. -/
theorem witness_ByteFrameIsReported :
    let init := [bit1, bit0, bit1, bit0, bit0, bit1, bit0].map fun r => (r, (1000 : Nat))
    defaultConfig.startFallthrough = false ∧ startRec defaultConfig startPulse = true ∧
      preRec defaultConfig startPulse = false ∧ Decoder.reset.control = .seekingStart ∧
      Decoder.reset.sawPreamble = false ∧ Decoder.reset.gotByte = false ∧ init.length = 7 ∧
      allBitRecords defaultConfig (init ++ [(bit1, 1000)]) := by
  unfold allBitRecords; decide

/-- After a byte, and with none before. -/
theorem witness_WordFrameNeedsByte :
    let bits := (wordBits 0x1234#16).map fun b => (bitPulse b, (1000 : Nat))
    let d := { Decoder.reset with gotByte := true }
    (defaultConfig.startFallthrough = false ∧ preRec defaultConfig prePulse = true ∧
      startRec defaultConfig prePulse = false ∧ startRec defaultConfig startPulse = true ∧
      preRec defaultConfig startPulse = false ∧ d.control = .seekingStart ∧ bits.length = 16 ∧
      allBitRecords defaultConfig bits) ∧
    (d.gotByte = true ∧ d.gotWord = false ∧
      withinTransaction defaultConfig ((prePulse, 1000) :: (startPulse, 1000) :: bits) d) ∧
    Decoder.reset.gotByte = false := by
  refine ⟨by unfold allBitRecords; decide, ⟨by decide, by decide, ?_⟩, by decide⟩
  repeat' first
    | exact trivial
    | refine ⟨by decide, ?_⟩

theorem witness_PortsRefineTransactions :
    let ps := [(startPulse, (1000 : Nat)), (bit1, 2000)]
    let s := { State.reset with ops := pulseOffers 16 ps, turns := promptTurns ps }
    (∀ p ∈ ps, p.1.wellFormed s.config.durW = true ∧ p.2 < 2 ^ s.config.tsW) ∧
    s.resPending = none ∧ s.ops = pulseOffers s.config.durW ps ++ [] ∧ s.turns = promptTurns ps ++ [] := by decide

theorem witness_EncodeOffersSequence :
    State.reset.txPending = none ∧ State.reset.config.bit1Low ≤ State.reset.config.bitPeriod ∧
      State.reset.config.bit0Low ≤ State.reset.config.bitPeriod ∧
      State.reset.config.bitPeriod < 2 ^ State.reset.config.durW ∧
      State.reset.config.sync1 < 2 ^ State.reset.config.durW ∧
      State.reset.config.sync2 < 2 ^ State.reset.config.durW := by decide

/-- Configurations outside 40_classifier.md R101: one low duration longer than the bit period while the
other is not, and one of more than `DUR_W` bits while the other has them at the boundary. -/
theorem witness_EncodeCompletesForEveryConfig :
    let s := { State.reset with config := { defaultConfig with bitPeriod := 5000, sync1 := 65535 } }
    let u := { State.reset with config := { defaultConfig with bit1Low := 65535, bit0Low := 65536 } }
    (s.txPending = none ∧ s.config.sync1 < 2 ^ s.config.durW ∧ s.config.sync2 < 2 ^ s.config.durW ∧
      ¬ s.config.bit0Low ≤ s.config.bitPeriod ∧ s.config.bit1Low ≤ s.config.bitPeriod ∧
      s.config.bitPeriod - s.config.bit1Low < 2 ^ s.config.durW) ∧
    (u.txPending = none ∧ u.config.bit1Low < 2 ^ u.config.durW ∧ ¬ u.config.bit0Low < 2 ^ u.config.durW) ∧
    ((encodeSeq s.config 0x80#8)[0 + 2]?.isSome = true ∧ (encodeSeq u.config 0x01#8)[7 + 2]?.isSome = true) := by
  decide

theorem witness_EncodeWaitsForSink :
    { State.reset with txPending := some [] }.txPending = some [] := by decide

theorem witness_EncodedLengthAndDuration :
    defaultConfig.constantsFit = true ∧ defaultConfig.bitsOrdered = true := by decide

/-- Also with synchronization durations outside 40_classifier.md R101 (d). -/
theorem witness_EncodedBitsReadBack :
    let c := { defaultConfig with sync1 := 1 }
    c.syncIsStart = false ∧ c.bitsOrdered = true ∧ c.bitsAreNotStarts = true ∧ c.bitPeriod < 2 ^ c.durW := by
  decide

theorem witness_DirectFeedReportsNothing :
    ((encodeSeq defaultConfig 0x3C#8).map (·, (500000 : Nat))).map (·.1) = encodeSeq defaultConfig 0x3C#8 ∧
      Decoder.reset.control = .seekingStart := by decide

/-- The boundaries of the preamble window. -/
theorem witness_RoundTripThroughChannel :
    ((800 : Nat) ≤ 800 ∧ 3000 ≤ (3000 : Nat)) ∧
    (800 < (801 : Nat) ∧ (801 : Nat) < 3000) ∧
    (800 < (2999 : Nat) ∧ (2999 : Nat) < 3000) := by decide

theorem witness_PulseAndEncodeCommute :
    State.reset.resPending = none ∧ State.reset.txPending = none := by decide

theorem witness_ResetWritesEveryField :
    { State.reset with turns := [.rst] }.turns = .rst :: [] := by decide

theorem witness_ResetValues : ∃ s t, exec .reset s = .next t := ⟨State.reset, State.reset, rfl⟩

theorem witness_StepRunsDecodedOperation :
    let s := State.reset.withFetchWord 40 0x04E217530
    s.turns = .operation :: [] ∧ s.ops = { word := 0x04E217530, now := 0, last := false } :: [] ∧
      decodeNumber s.config.durW 0x04E217530 = some (.pulse startPulse) := by decide

theorem witness_ReservedWordStopsTheRun :
    let s := State.reset.withFetchWord 40 0xC00000000
    s.turns = .operation :: [] ∧ s.ops = { word := 0xC00000000, now := 0, last := false } :: [] ∧
      decodeNumber s.config.durW 0xC00000000 = none ∧ s.config.durW = 16 ∧
      legalWord (BitVec.ofNat 36 0xC00000000) = false := by decide

/-- A collecting decoder with a sequence offered, its turn to take a bit. -/
def busy : State :=
  { at_ (collecting .bits8 5#16 3#5 true false 0) 1000 with
    txPending := some (encodeSeq defaultConfig 0xA5#8)
    turns := [.operation]
    ops := [{ word := (encode 16 (.pulse bit1)).toNat, now := 1000, last := true }] }

theorem witness_StepKeepsInvariants : StateInv busy ∧ ∃ t, step busy = .next t := by
  refine ⟨⟨by unfold DecoderInv; decide, trivial, fun q h => ⟨0xA5#8, ?_⟩, by decide, by decide⟩, ⟨_, rfl⟩⟩
  exact (Option.some.inj h).symm

theorem witness_ParametersNeverChange : ∃ t, step busy = .next t := ⟨_, rfl⟩

theorem witness_OperationsAreTakenInOrder : ∃ t, step busy = .next t := ⟨_, rfl⟩

theorem witness_ResultHeldUntilTaken :
    let s := { State.reset with resPending := some (.byte 0xA5#8), turns := [.consumer] }
    s.resPending = some (.byte 0xA5#8) ∧ ∃ t, step s = .next t := ⟨rfl, _, rfl⟩

theorem witness_SequenceHeldUntilTaken :
    let s := { State.reset with txPending := some [], turns := [.sink] }
    s.txPending = some [] ∧ ∃ t, step s = .next t := ⟨rfl, _, rfl⟩

theorem witness_ConsumerAndSinkTurns :
    { State.reset with turns := [.consumer] }.turns = .consumer :: [] ∧
      { State.reset with turns := [.sink] }.turns = .sink :: [] := by decide

theorem witness_NoInputMeansWaiting :
    State.reset.turns = [] ∧ { State.reset with turns := [.operation] }.turns = .operation :: [] ∧
      { State.reset with turns := [.operation] }.ops = [] := by decide

end Sys2Proof.Tests
end

section
/-!
PROOFS. RESET and the reset values of the decoder's fields (10_state.md R32).
-/

namespace Sys2Proof.Proofs

open Sys2Proof.Machine Sys2Proof.Laws

/-- RESET completes in every state: the block is reset and the operation accepted
(70_reset_and_hazards.md R230). -/
theorem exec_reset (s : State) : exec .reset s = .next (accept (resetBlock s)) :=
  execReset_eq s

/-- Whatever the decoder held, RESET leaves it at its reset values. -/
theorem dec_of_exec_reset {s t : State} (h : exec .reset s = .next t) : t.dec = Decoder.reset := by
  rw [exec_reset] at h
  cases h
  simp only [accept_dec, resetBlock_dec]

/-- Settles O47: power-on and RESET both leave the decoder `Decoder.reset`, which is the table of R32. -/
theorem resetValues : Obligations.ResetValues := by
  refine ⟨fun d hd => ?fields, fun s => ⟨accept (resetBlock s), exec_reset s⟩⟩
  case fields =>
    have hreset : d = Decoder.reset := by
      obtain hpower | ⟨s, t, hexec, hdec⟩ := hd
      · exact hpower
      · exact hdec.trans (dec_of_exec_reset hexec)
    subst hreset
    simp only [Decoder.reset, and_self]

end Sys2Proof.Proofs
end

section
/-!
PROOFS. The decode table at the default width, selector by selector (30_encoding.md R73 to R77): the
ENCODE and RESET words, and the reserved space.
-/

namespace Sys2Proof.Proofs

open Sys2Proof.Laws

section Selectors

variable {w : BitVec 36}

/-- The selector is two bits. -/
theorem selector_cases (w : BitVec 36) :
    w.toNat / 2 ^ 34 = 0 ∨ w.toNat / 2 ^ 34 = 1 ∨ w.toNat / 2 ^ 34 = 2 ∨ w.toNat / 2 ^ 34 = 3 := by
  have := w.isLt
  omega

/-- Every word with selector 00 is a PULSE (30_encoding.md R73). -/
theorem decodeNumber_of_selector_zero (h : w.toNat / 2 ^ 34 = 0) :
    decodeNumber 16 w.toNat = some (.pulse (recordOfWord 16 (BitVec.ofNat (recBits 16) w.toNat))) := by
  rw [decodeNumber_default, if_pos h]

/-- Selector 01: an ENCODE when bits 33:8 are zero (30_encoding.md R74). -/
theorem decodeNumber_of_selector_one (h : w.toNat / 2 ^ 34 = 1) :
    decodeNumber 16 w.toNat =
      if w.toNat % 2 ^ 34 / 2 ^ 8 = 0 then some (.encode (BitVec.ofNat 8 w.toNat)) else none := by
  rw [decodeNumber_default, h, if_neg (by decide), if_pos rfl]

/-- Selector 10: the RESET when bits 33:0 are zero (30_encoding.md R75). -/
theorem decodeNumber_of_selector_two (h : w.toNat / 2 ^ 34 = 2) :
    decodeNumber 16 w.toNat = if w.toNat % 2 ^ 34 = 0 then some .reset else none := by
  rw [decodeNumber_default, h, if_neg (by decide), if_neg (by decide), if_pos rfl]

/-- Selector 11 is reserved (30_encoding.md R76). -/
theorem decodeNumber_of_selector_three (h : w.toNat / 2 ^ 34 = 3) : decodeNumber 16 w.toNat = none := by
  rw [decodeNumber_default, h, if_neg (by decide), if_neg (by decide), if_neg (by decide)]

end Selectors

/-- Settles O3, by the four values of the selector. -/
theorem reservedSpaceIsRefused : Obligations.ReservedSpaceIsRefused := by
  intro w
  rcases selector_cases w with hpulse | hencode | hreset | hreserved
  · rw [decodeNumber_of_selector_zero hpulse, hpulse]
    simp
  · rw [decodeNumber_of_selector_one hencode, hencode]
    simp
  · rw [decodeNumber_of_selector_two hreset, hreset]
    simp
  · rw [decodeNumber_of_selector_three hreserved, hreserved]
    simp

/-- Settles O6: the ENCODE and RESET rows of the decode table. -/
theorem encodeAndResetWordsDecode : Obligations.EncodeAndResetWordsDecode := by
  refine ⟨fun w hsel hzero => ?encode, fun w hsel hzero => ?reset⟩
  case encode =>
    have hbyte : BitVec.ofNat 8 (w.toNat % 2 ^ 8) = BitVec.ofNat 8 w.toNat :=
      BitVec.eq_of_toNat_eq (by simp)
    rw [decodeNumber_of_selector_one hsel, if_pos hzero, hbyte]
  case reset => rw [decodeNumber_of_selector_two hsel, if_pos hzero]

end Sys2Proof.Proofs
end

section
/-!
PROOFS. The timing-window classifier (40_classifier.md R102 to R107): the windows, the bit threshold, the
predicates of a record, and the low half a bit is read from.
-/

namespace Sys2Proof.Proofs

open Sys2Proof.Machine Sys2Proof.Laws

/-! ## The windows -/

/-- Both bounds are exclusive, and only an `L` half is a preamble (40_classifier.md R102). -/
theorem isPreamble_iff (c : Config) (h : Half) :
    isPreamble c h = true ↔ h.level = .low ∧ c.preMin < h.dur ∧ h.dur < c.preMax := by
  simp only [isPreamble, Bool.and_eq_true, beq_iff_eq, decide_eq_true_eq, and_assoc]

/-- Both bounds are exclusive, and only an `H` half is a start (40_classifier.md R103). -/
theorem isStart_iff (c : Config) (h : Half) :
    isStart c h = true ↔ h.level = .high ∧ c.startMin < h.dur ∧ h.dur < c.startMax := by
  simp only [isStart, Bool.and_eq_true, beq_iff_eq, decide_eq_true_eq, and_assoc]

/-- The preamble window at the defaults: "800 < d < 3000". -/
theorem isPreamble_default (d : Nat) :
    isPreamble defaultConfig { level := .low, dur := d } = decide (800 < d ∧ d < 3000) :=
  Bool.eq_iff_iff.2 (by simp [isPreamble_iff, defaultConfig])

/-- The start window at the defaults: "high, 28000 < d < 32000". -/
theorem isStart_default (d : Nat) :
    isStart defaultConfig { level := .high, dur := d } = decide (28000 < d ∧ d < 32000) :=
  Bool.eq_iff_iff.2 (by simp [isStart_iff, defaultConfig])

/-- Settles O10: the window of `isPreamble_iff`, and its corner cases from the default bounds. -/
theorem preambleWindow : Obligations.PreambleWindow := by
  refine ⟨isPreamble_iff, ?corners⟩
  case corners =>
    simp only [isPreamble_default]
    decide

/-- Settles O11: the window of `isStart_iff`, and its corner cases from the default bounds. -/
theorem startWindow : Obligations.StartWindow := by
  refine ⟨isStart_iff, ?corners⟩
  case corners =>
    simp only [isStart_default]
    decide

/-! ## The low half and its bit -/

/-- Below the threshold a duration is bit 1 (40_classifier.md R104). -/
theorem bitOf_iff (c : Config) (d : Nat) : bitOf c d = true ↔ d < c.bitThreshold :=
  decide_eq_true_iff

/-- From the threshold on a duration is bit 0 (40_classifier.md R104). -/
theorem bitOf_eq_false_iff (c : Config) (d : Nat) : bitOf c d = false ↔ c.bitThreshold ≤ d := by
  rw [← Bool.not_eq_true, bitOf_iff, Nat.not_lt]

/-- An `L` half 0 is the one used, whatever half 1 is (40_classifier.md R107, decision D10). -/
theorem lowHalf_of_low (d0 : Nat) (h1 : Half) :
    lowHalf { half0 := { level := .low, dur := d0 }, half1 := h1 } = some d0 := rfl

/-- After an `H` half 0, an `L` half 1 is the one used (40_classifier.md R107). -/
theorem lowHalf_of_high_low (d0 d1 : Nat) :
    lowHalf { half0 := { level := .high, dur := d0 }, half1 := { level := .low, dur := d1 } } = some d1 := rfl

/-- Two `H` halves hold no bit (40_classifier.md R107). -/
theorem lowHalf_of_high_high (d0 d1 : Nat) :
    lowHalf { half0 := { level := .high, dur := d0 }, half1 := { level := .high, dur := d1 } } = none :=
  (lowHalf_eq_none_iff _).2 ⟨rfl, rfl⟩

/-- Where `lowHalf` found its duration: an `L` half 0, or an `L` half 1 after an `H` half 0. -/
theorem lowHalf_eq_some_iff (r : Record) (d : Nat) :
    lowHalf r = some d ↔
      r.half0 = { level := .low, dur := d } ∨
        r.half0.level = .high ∧ r.half1 = { level := .low, dur := d } := by
  obtain ⟨⟨l0, d0⟩, ⟨l1, d1⟩⟩ := r
  match l0, l1 with
  | .low, _ => simp [lowHalf_of_low]
  | .high, .low => simp [lowHalf_of_high_low]
  | .high, .high => simp [lowHalf_of_high_high]

/-- Settles O12: the threshold in both directions, and the half `lowHalf` reads. -/
theorem bitThreshold : Obligations.BitThreshold := by
  refine ⟨bitOf_iff, fun d => ⟨?one, ?zero⟩, fun r d hlow => ?half⟩
  case one => exact (bitOf_iff defaultConfig d).2
  case zero => exact (bitOf_eq_false_iff defaultConfig d).2
  case half => exact ((lowHalf_eq_some_iff r d).1 hlow).imp_right And.right

/-- Settles O14: one equation for each level pattern. -/
theorem lowHalfChoice : Obligations.LowHalfChoice := fun d0 d1 =>
  ⟨lowHalf_of_low d0 _, lowHalf_of_low d0 _, lowHalf_of_high_low d0 d1, lowHalf_of_high_high d0 d1⟩

/-! ## The predicates of a record -/

/-- A preamble record has a preamble in either half (40_classifier.md R106). -/
theorem preRec_iff (c : Config) (r : Record) :
    preRec c r = true ↔ (isPreamble c r.half0 = true ∨ isPreamble c r.half1 = true) :=
  Bool.or_eq_true_iff

/-- A start record has a start in either half (40_classifier.md R106). -/
theorem startRec_iff (c : Config) (r : Record) :
    startRec c r = true ↔ (isStart c r.half0 = true ∨ isStart c r.half1 = true) :=
  Bool.or_eq_true_iff

/-- An `L` half inside the preamble window before an `H` half inside the start window. -/
def preambleThenStart : Record :=
  { half0 := { level := .low, dur := 1500 }, half1 := { level := .high, dur := 30000 } }

/-- One record can be both: its two halves are classified apart. -/
theorem preambleThenStart_isBoth :
    preRec defaultConfig preambleThenStart = true ∧ startRec defaultConfig preambleThenStart = true :=
  ⟨(preRec_iff _ _).2 (.inl (isPreamble_default 1500)), (startRec_iff _ _).2 (.inr (isStart_default 30000))⟩

/-- The record `PRE` is a preamble by its half 0, and no half of it is a start. -/
theorem prePulse_isPreambleOnly :
    preRec defaultConfig prePulse = true ∧ startRec defaultConfig prePulse = false := by
  refine ⟨(preRec_iff _ _).2 (.inl (isPreamble_default 1500)), ?noStart⟩
  case noStart =>
    rw [← Bool.not_eq_true, startRec_iff, isStart_iff, isStart_iff]
    decide

/-- Settles O13: `R106` for every record, the record `PRE`, and a record that is both. -/
theorem recordPredicates : Obligations.RecordPredicates := by
  obtain ⟨hpre, hnoStart⟩ := prePulse_isPreambleOnly
  exact ⟨preRec_iff, startRec_iff, hpre, hnoStart, preambleThenStart, preambleThenStart_isBoth⟩

end Sys2Proof.Proofs
end

section
/-!
PROOFS. The decoder's rules before the bit rule (41_decoder.md R122 to R127): the idle check, the preamble
rule, the start rule, and the discard while seeking.
-/

namespace Sys2Proof.Proofs

open Sys2Proof.Machine Sys2Proof.Laws Sys2Proof.Safety

/-- The arm of PULSE. -/
theorem exec_pulse (r : Record) (s : State) : exec (.pulse r) s = execPulse r s := rfl

/-- PULSE at a busy port waits. -/
theorem exec_pulse_busy {r : Record} {s : State} {x : Result} (hbusy : s.resPending = some x) :
    exec (.pulse r) s = .next s := by
  rw [exec_pulse, execPulse_busy r s x hbusy]

/-- PULSE at a ready port: the record is transferred. -/
theorem exec_pulse_ready {r : Record} {s : State} (hready : s.resPending = none) :
    exec (.pulse r) s = .next (afterRecord s (pulseStep s.config r s.pinNow s.dec).1
      (pulseStep s.config r s.pinNow s.dec).2) := by
  rw [exec_pulse, execPulse_ready r s hready]

/-- PULSE at a ready port, from what the decoder step answers. -/
theorem exec_pulse_of_pulseStep {r : Record} {s : State} {d : Decoder} {res : Option Result}
    (hready : s.resPending = none) (hstep : pulseStep s.config r s.pinNow s.dec = (d, res)) :
    exec (.pulse r) s = .next (afterRecord s d res) := by
  rw [exec_pulse_ready hready, hstep]

/-! ## The idle check (R122) -/

/-- The idle check, with its comparison on the integers. -/
theorem idleCheck_eq (c : Config) (now : Nat) (d : Decoder) :
    idleCheck c now d =
      if ((now : Int) - d.lastActivity) % (2 ^ c.tsW : Nat) > c.idleWindow
      then { d with gotByte := false, gotWord := false } else d := by
  simp only [idleCheck, isBoundary_iff]

/-- `keptFlag` is the flag the idle check leaves. -/
theorem keptFlag_eq (flag : Bool) (s : State) :
    keptFlag flag s = (flag && !isBoundary s.config s.pinNow s.dec) := by
  have hnot : decide (((s.pinNow : Int) - s.dec.lastActivity) % (2 ^ s.config.tsW : Nat)
      ≤ s.config.idleWindow) = !isBoundary s.config s.pinNow s.dec := by
    rw [Bool.eq_iff_iff, decide_eq_true_iff, Bool.not_eq_true', ← Bool.not_eq_true, isBoundary_iff,
      not_lt]
  rw [keptFlag, hnot]

/-- What the idle check of a PULSE leaves, field by field: only the suppression flags can differ. -/
theorem idleCheck_eq_keptFlag (s : State) :
    idleCheck s.config s.pinNow s.dec =
      { s.dec with gotByte := keptFlag s.dec.gotByte s, gotWord := keptFlag s.dec.gotWord s } := by
  rw [keptFlag_eq, keptFlag_eq, idleCheck]
  cases isBoundary s.config s.pinNow s.dec <;> simp

/-- The decoder step reads its state only through the idle check: the check comes first. -/
theorem pulseStep_congr {c : Config} {now : Nat} {d d' : Decoder} (r : Record)
    (h : idleCheck c now d = idleCheck c now d') : pulseStep c r now d = pulseStep c r now d' := by
  simp only [pulseStep, h]

/-- On a boundary step the idle check answers the same from the state with both flags already clear. -/
theorem idleCheck_clearFlags {c : Config} {now : Nat} {d : Decoder}
    (h : ((now : Int) - d.lastActivity) % (2 ^ c.tsW : Nat) > c.idleWindow) :
    idleCheck c now { d with gotByte := false, gotWord := false } = idleCheck c now d := by
  rw [idleCheck_eq, idleCheck_eq, if_pos h, if_pos h]

/-- Settles O15: the check's equation, and that the step sees the decoder only through the check. -/
theorem idleCheckComesFirst : Obligations.IdleCheckComesFirst := by
  refine ⟨idleCheck_eq, fun r s hboundary hready => ⟨_, exec_pulse_ready hready, ?cleared⟩⟩
  case cleared =>
    exact exec_pulse_of_pulseStep hready (pulseStep_congr r (idleCheck_clearFlags hboundary))

/-! ## The preamble rule (R124) -/

section Step

variable {c : Config} {r : Record} {now : Nat} {d : Decoder}

/-- Seeking, a preamble record that the start rule does not also take sets the preamble flag and ends the
step. -/
theorem pulseStep_of_preamble (hseek : d.control = .seekingStart) (hpre : preRec c r = true)
    (hstop : c.preFallthrough = false ∨ startRec c r = false) :
    pulseStep c r now d = (setPreamble (idleCheck c now d), none) := by
  rcases pulseStep_cases c r now d with
    ⟨-, -, -, h⟩ | ⟨hstart, hreach, -⟩ | ⟨-, hnoPre, -⟩ | ⟨hcol, -⟩ | ⟨hcol, -⟩
  · exact h
  · have hfall : c.preFallthrough = true := by simpa [hseek, hpre] using hreach
    simp [hfall, hstart] at hstop
  · simp [hpre] at hnoPre
  · simp [hseek] at hcol
  · simp [hseek] at hcol

/-- Seeking, a record that is neither a preamble nor a start record is discarded (R127). -/
theorem pulseStep_of_neither (hseek : d.control = .seekingStart) (hpre : preRec c r = false)
    (hstart : startRec c r = false) : pulseStep c r now d = (idleCheck c now d, none) := by
  rcases pulseStep_cases c r now d with
    ⟨-, hpre', -⟩ | ⟨hstart', -⟩ | ⟨-, -, -, h⟩ | ⟨hcol, -⟩ | ⟨hcol, -⟩
  · simp [hpre] at hpre'
  · simp [hstart] at hstart'
  · exact h
  · simp [hseek] at hcol
  · simp [hseek] at hcol

/-- A bit leaves the preamble flag alone, also when it completes its frame. -/
@[simp] theorem collectBit_sawPreamble (now : Nat) (b : Bool) (d : Decoder) :
    (collectBit now b d).1.sawPreamble = d.sawPreamble := by
  rcases collectBit_cases now b d with ⟨-, h⟩ | ⟨-, h⟩
  · rw [h, shiftIn_sawPreamble]
  · obtain ⟨-, -, -, -, hsaw, -⟩ := completeFrame_fields now (shiftIn b d)
    rw [h, hsaw, shiftIn_sawPreamble]

/-- While collecting, a start record clears the preamble flag and every other record keeps it. -/
theorem pulseStep_sawPreamble_of_collecting (hcol : d.control = .collectingBits) :
    (pulseStep c r now d).1.sawPreamble = (d.sawPreamble && !startRec c r) := by
  rcases pulseStep_cases c r now d with
    ⟨hseek, -⟩ | ⟨hstart, -, d1, -, hframe⟩ | ⟨hseek, -⟩ | ⟨-, hstart, -, h⟩ | ⟨-, hstart, ld, -, h⟩
  · simp [hcol] at hseek
  · obtain ⟨-, h⟩ | ⟨-, ld, -, h⟩ := hframe <;> simp [h, hstart]
  · simp [hcol] at hseek
  · simp [h, hstart]
  · simp [h, hstart]

/-- While collecting, the step does not read the preamble window. -/
theorem pulseStep_preambleWindow_of_collecting (lo hi : Nat) (hcol : d.control = .collectingBits) :
    pulseStep { c with preMin := lo, preMax := hi } r now d = pulseStep c r now d := by
  have hstartRules (c : Config) : pulseStep c r now d = startRules c r now (idleCheck c now d) := by
    simp [pulseStep, hcol]
  rw [hstartRules, hstartRules]
  rfl

end Step

/-- Settles O17: seeking, the preamble rule ends the step; collecting, the step neither sets the flag nor
reads the preamble window, whether the record is transferred or waits. -/
theorem preambleRecordSetsFlag : Obligations.PreambleRecordSetsFlag := by
  refine ⟨fun r s hready hseek hpre hstop => ?seeking, fun r s lo hi hcol => ?collecting⟩
  case seeking =>
    refine exec_pulse_of_pulseStep hready ?_
    rw [pulseStep_of_preamble hseek hpre hstop, idleCheck_eq_keptFlag]
    rfl
  case collecting =>
    obtain hready | ⟨x, hbusy⟩ := Option.eq_none_or_eq_some s.resPending
    · refine ⟨_, exec_pulse_ready hready, fun hclear => ?flag, ?window⟩
      case flag => rw [afterRecord_dec, pulseStep_sawPreamble_of_collecting hcol, hclear, Bool.false_and]
      case window =>
        exact exec_pulse_of_pulseStep hready (pulseStep_preambleWindow_of_collecting lo hi hcol)
    · exact ⟨s, exec_pulse_busy hbusy, id, exec_pulse_busy hbusy⟩

/-! ## The start rule (R125, R126) -/

/-- The decoder as the start rule finds it: after the idle check, and with the preamble flag also set by
this record's own preamble. -/
theorem beforeStart_eq (r : Record) (s : State) :
    (if s.dec.control = .seekingStart ∧ preRec s.config r = true
      then setPreamble (idleCheck s.config s.pinNow s.dec) else idleCheck s.config s.pinNow s.dec) =
      { s.dec with
        sawPreamble := s.dec.sawPreamble || decide (s.dec.control = .seekingStart ∧ preRec s.config r = true)
        gotByte := keptFlag s.dec.gotByte s
        gotWord := keptFlag s.dec.gotWord s } := by
  rw [idleCheck_eq_keptFlag]
  split
  · next h => simp [setPreamble, h]
  · next h => simp [h]

/-- Settles O18: the frame begins, and its own low half is a bit exactly with START_FALLTHROUGH. -/
theorem startRecordBeginsFrame : Obligations.StartRecordBeginsFrame := by
  intro r s hready hstart hreach
  refine exec_pulse_of_pulseStep hready ?_
  rcases pulseStep_cases s.config r s.pinNow s.dec with
    ⟨hseek, hpre, hstop, -⟩ | ⟨-, -, d1, hd1, hframe⟩ | ⟨-, -, hnoStart, -⟩ | ⟨-, hnoStart, -⟩ |
      ⟨-, hnoStart, -⟩
  · have hfall : s.config.preFallthrough = true := by simpa [hseek, hpre] using hreach
    simp [hfall, hstart] at hstop
  · rw [beforeStart_eq] at hd1
    subst hd1
    obtain ⟨hnoBit, h⟩ | ⟨hfall, ld, hlow, h⟩ := hframe
    · rw [h]
      obtain hfall | hlow := hnoBit
      · simp [startFrame, hfall]
      · simp [startFrame, hlow]
    · rw [h]
      simp [shiftIn, startFrame, hfall, hlow]
  · simp [hstart] at hnoStart
  · simp [hstart] at hnoStart
  · simp [hstart] at hnoStart

/-! ## The discard while seeking (R127) -/

/-- Settles O19: a preamble record has only set its flag, and any other record nothing. -/
theorem seekingDiscardsOtherRecords : Obligations.SeekingDiscardsOtherRecords := by
  intro r s hready hseek hstart _
  refine exec_pulse_of_pulseStep hready ?_
  cases hpre : preRec s.config r with
  | true =>
    rw [pulseStep_of_preamble hseek hpre (.inr hstart), idleCheck_eq_keptFlag, Bool.or_true]
    rfl
  | false => rw [pulseStep_of_neither hseek hpre hstart, idleCheck_eq_keptFlag, Bool.or_false]

end Sys2Proof.Proofs
end

section
/-!
PROOFS. ENCODE (42_encoder.md R170, R171): the records `Encode(V)` with the exact durations of R171, wherever
those are numbers of `DUR_W` bits.
-/

namespace Sys2Proof.Proofs

open Sys2Proof.Machine Sys2Proof.Laws

/-- ENCODE at a free encoder port: the whole sequence is offered. -/
theorem exec_encode_ready {v : Byte} {s : State} (hfree : s.txPending = none) :
    exec (.encode v) s = .next { s with ops := s.ops.tail, txPending := some (encodeSeq s.config v) } := by
  have harm : exec (.encode v) s = execEncode v s := rfl
  rw [harm, execEncode, if_pos (by simp [encReady, hfree]), accept]

/-- A bit of a value, by arithmetic. -/
theorem getLsbD_iff_div_mod (v : Byte) (i : Nat) : v.getLsbD i = true ↔ v.toNat / 2 ^ i % 2 = 1 := by
  rw [← BitVec.testBit_toNat, Nat.testBit_eq_decide_div_mod_eq, decide_eq_true_iff]

section Records

variable {c : Config}

/-- A synchronization record sends a duration that fits in both halves. -/
theorem syncRecord_of_lt {d : Nat} (hfit : d < 2 ^ c.durW) :
    syncRecord c d = Record.mk (Half.mk .high d) (Half.mk .high d) := by
  rw [syncRecord, sentDuration_of_lt c d hfit]

/-- A bit record sends its low duration and the rest of the bit period, when the low duration is a part of
the period and the period fits. -/
theorem bitRecord_of_le {b : Bool} {low : Nat} (hlow : (if b then c.bit1Low else c.bit0Low) = low)
    (hle : low ≤ c.bitPeriod) (hfit : c.bitPeriod < 2 ^ c.durW) :
    bitRecord c b = Record.mk (Half.mk .low low) (Half.mk .high (c.bitPeriod - low)) := by
  rw [bitRecord, hlow, sentDuration_of_lt c low (hle.trans_lt hfit),
    sentDuration_sub c c.bitPeriod low hle hfit]

/-- The record of bit `i` of a value, by the arithmetic of that bit. -/
theorem bitRecord_getLsbD (v : Byte) (i : Nat) (hone : c.bit1Low ≤ c.bitPeriod)
    (hzero : c.bit0Low ≤ c.bitPeriod) (hfit : c.bitPeriod < 2 ^ c.durW) :
    bitRecord c (v.getLsbD i) =
      if v.toNat / 2 ^ i % 2 = 1
      then Record.mk (Half.mk .low c.bit1Low) (Half.mk .high (c.bitPeriod - c.bit1Low))
      else Record.mk (Half.mk .low c.bit0Low) (Half.mk .high (c.bitPeriod - c.bit0Low)) := by
  split
  case isTrue hbit =>
    rw [(getLsbD_iff_div_mod v i).2 hbit]
    exact bitRecord_of_le rfl hone hfit
  case isFalse hbit =>
    rw [Bool.eq_false_iff.2 (mt (getLsbD_iff_div_mod v i).1 hbit)]
    exact bitRecord_of_le rfl hzero hfit

end Records

/-- The encoder's countdown from bit 7, indexed by the position of the bit in the sequence. -/
theorem encodeSeq_eq_range (c : Config) (v : Byte) :
    encodeSeq c v = syncRecord c c.sync1 :: syncRecord c c.sync2 ::
      (List.range 8).map fun k => bitRecord c (v.getLsbD (7 - k)) := rfl

/-- Settles O38: ENCODE at a free port offers `Encode(V)`, whose records are the exact ones. -/
theorem encodeOffersSequence : Obligations.EncodeOffersSequence := by
  intro v s hfree hone hzero hperiod hsync1 hsync2
  rw [exec_encode_ready hfree, encodeSeq_eq_range, syncRecord_of_lt hsync1, syncRecord_of_lt hsync2]
  simp only [bitRecord_getLsbD v _ hone hzero hperiod]

end Sys2Proof.Proofs
end

section
/-!
PROOFS. No exceptions (60_exceptions.md R200): each operation answers a next state in every state, whether its
port is ready or busy, so a reserved word is all that a step can refuse.
-/

namespace Sys2Proof.Proofs

open Sys2Proof.Machine Sys2Proof.Laws

/-- ENCODE at a busy encoder port waits (30_encoding.md R81). -/
theorem exec_encode_busy {v : Byte} {s : State} {q : List Record} (hbusy : s.txPending = some q) :
    exec (.encode v) s = .next s := by
  have harm : exec (.encode v) s = execEncode v s := rfl
  rw [harm, execEncode, if_neg (by simp [encReady, hbusy])]

/-- PULSE answers a next state on every record and every `now` (41_decoder.md R120). -/
theorem exec_pulse_total (r : Record) (s : State) : ∃ t, exec (.pulse r) s = .next t := by
  cases hport : s.resPending with
  | none => exact ⟨_, exec_pulse_ready hport⟩
  | some x => exact ⟨s, exec_pulse_busy hport⟩

/-- ENCODE answers a next state on every value (42_encoder.md R170). -/
theorem exec_encode_total (v : Byte) (s : State) : ∃ t, exec (.encode v) s = .next t := by
  cases hport : s.txPending with
  | none => exact ⟨_, exec_encode_ready hport⟩
  | some q => exact ⟨s, exec_encode_busy hport⟩

/-- No operation faults or is refused. -/
theorem exec_total (i : Instr) (s : State) : ∃ t, exec i s = .next t := by
  cases i with
  | pulse r => exact exec_pulse_total r s
  | encode v => exact exec_encode_total v s
  | reset => exact ⟨_, exec_reset s⟩

/-- Settles O50: of everything a step can do, only running an operation could fail otherwise, and no operation
does. -/
theorem onlyReservedWordsAreRefused : Obligations.OnlyReservedWordsAreRefused := by
  refine ⟨exec_total, fun s => ?step⟩
  case step =>
    obtain ⟨-, hwait⟩ | ⟨ts, -, -, hidle⟩ | ⟨ts, o, os, i, -, -, -, hrun⟩ |
      ⟨ts, o, os, hturns, hops, hdecode, hrefused⟩ | ⟨ts, -, hconsumer⟩ | ⟨ts, -, hsink⟩ | ⟨ts, -, hrst⟩ :=
      step_cases s
    · exact .inl ⟨_, hwait⟩
    · exact .inl ⟨_, hidle⟩
    · obtain ⟨t, hexec⟩ := exec_total i (present o { s with turns := ts })
      exact .inl ⟨t, hrun.trans hexec⟩
    · exact .inr ⟨o, os, ts, hturns, hops, hdecode, hrefused⟩
    · exact .inl ⟨_, hconsumer⟩
    · exact .inl ⟨_, hsink⟩
    · exact .inl ⟨_, hrst⟩

end Sys2Proof.Proofs
end

section
/-!
PROOFS. Operation words and operations, both ways, at every width of durations (30_encoding.md R70 to R77).
-/

namespace Sys2Proof.Proofs

open Sys2Proof.Laws

/-! ## A record and its word -/

/-- A level is known by whether it is `H`. -/
theorem level_eq_of_high_iff {a b : Level} (h : a = .high ↔ b = .high) : a = b := by
  revert h
  cases a <;> cases b <;> decide

/-- The bit of a level is 1 exactly for `H` (00_scope.md R7). -/
theorem bitOfLevel_toNat_eq_one_iff (l : Level) : (bitOfLevel l).toNat = 1 ↔ l = .high := by
  cases l <;> decide

/-- The bit of a level that is `H` exactly where a number is odd is the number's last bit. -/
theorem bitOfLevel_toNat_of_high_iff {l : Level} {n : Nat} (h : l = .high ↔ n % 2 = 1) :
    (bitOfLevel l).toNat = n % 2 := by
  have hlt := bitOfLevel_lt l
  rw [← bitOfLevel_toNat_eq_one_iff] at h
  omega

/-- A last digit in base `b`, put on and taken off. -/
theorem digit_div_mod {b d : Nat} (q : Nat) (hd : d < b) : (q * b + d) / b = q ∧ (q * b + d) % b = d := by
  rw [Nat.mul_comm, Nat.mul_add_div (by omega), Nat.div_eq_of_lt hd, Nat.mul_add_mod, Nat.mod_eq_of_lt hd]
  exact ⟨rfl, rfl⟩

/-- The number of a record word, its fields `l0`, `d0`, `l1`, `d1` put on one after another
(30_encoding.md R70). -/
theorem wordOfRecord_toNat_digits (durW : Nat) (r : Record) :
    (wordOfRecord durW r).toNat =
      (((bitOfLevel r.half0.level).toNat * 2 ^ durW + r.half0.dur % 2 ^ durW) * 2 +
        (bitOfLevel r.half1.level).toNat) * 2 ^ durW + r.half1.dur % 2 ^ durW := by
  rw [wordOfRecord_toNat, Nat.pow_add]
  ring

/-- The fields of a record word, its digits taken off one after another (30_encoding.md R71). -/
theorem recordOfWord_digits (durW n : Nat) (h : n < 2 ^ recBits durW) :
    let r := recordOfWord durW (BitVec.ofNat (recBits durW) n)
    (r.half0.level = .high ↔ n / 2 ^ durW / 2 / 2 ^ durW % 2 = 1) ∧
    r.half0.dur = n / 2 ^ durW / 2 % 2 ^ durW ∧
    (r.half1.level = .high ↔ n / 2 ^ durW % 2 = 1) ∧
    r.half1.dur = n % 2 ^ durW := by
  have hd0 : n / 2 ^ durW / 2 = n / 2 ^ (durW + 1) := by rw [Nat.div_div_eq_div_mul, Nat.pow_succ]
  have hl0 : n / 2 ^ (durW + 1) / 2 ^ durW = n / 2 ^ (2 * durW + 1) := by
    rw [Nat.div_div_eq_div_mul, ← Nat.pow_add]
    congr 2
    omega
  rw [hd0, hl0]
  exact recordOfWord_fields durW n h

/-- Reading the word of a record gives the record back, when its durations have their width. -/
theorem recordOfWord_wordOfRecord {durW : Nat} {r : Record} (hr : r.wellFormed durW = true) :
    recordOfWord durW (BitVec.ofNat (recBits durW) (wordOfRecord durW r).toNat) = r := by
  simp only [Record.wellFormed, Bool.and_eq_true, decide_eq_true_eq] at hr
  obtain ⟨hd0, hd1⟩ := hr
  obtain ⟨hl0, hdur0, hl1, hdur1⟩ := recordOfWord_digits durW _ (wordOfRecord durW r).isLt
  have b0 := bitOfLevel_lt r.half0.level
  have b1 := bitOfLevel_lt r.half1.level
  rw [wordOfRecord_toNat_digits, Nat.mod_eq_of_lt hd0, Nat.mod_eq_of_lt hd1] at *
  simp only [digit_div_mod _ hd1, digit_div_mod _ b1, digit_div_mod _ hd0,
    Nat.mod_eq_of_lt b0, bitOfLevel_toNat_eq_one_iff] at hl0 hdur0 hl1 hdur1
  generalize recordOfWord durW _ = r' at *
  obtain ⟨⟨l0, d0⟩, ⟨l1, d1⟩⟩ := r'
  have e0 := level_eq_of_high_iff hl0
  have e1 := level_eq_of_high_iff hl1
  simp only at e0 e1 hdur0 hdur1
  rw [e0, e1, hdur0, hdur1]

/-- Writing the record of a word gives the word's number back (30_encoding.md R70, R71). -/
theorem wordOfRecord_recordOfWord (durW n : Nat) (h : n < 2 ^ recBits durW) :
    (wordOfRecord durW (recordOfWord durW (BitVec.ofNat (recBits durW) n))).toNat = n := by
  obtain ⟨hl0, hdur0, hl1, hdur1⟩ := recordOfWord_digits durW n h
  have htop : n / 2 ^ durW / 2 / 2 ^ durW < 2 := by
    rw [Nat.div_div_eq_div_mul, Nat.div_div_eq_div_mul]
    apply Nat.div_lt_of_lt_mul
    calc n < 2 ^ recBits durW := h
      _ = 2 ^ durW * (2 * 2 ^ durW) * 2 := by rw [recBits]; ring
  rw [wordOfRecord_toNat_digits, bitOfLevel_toNat_of_high_iff hl0, bitOfLevel_toNat_of_high_iff hl1, hdur0,
    hdur1, Nat.mod_mod, Nat.mod_mod, Nat.mod_eq_of_lt htop, Nat.div_add_mod', Nat.div_add_mod', Nat.div_add_mod']

/-- A record read from a word has durations of their width. -/
theorem recordOfWord_wellFormed (durW : Nat) (w : RecWord durW) :
    (recordOfWord durW w).wellFormed durW = true := by
  rw [Record.wellFormed, Bool.and_eq_true, decide_eq_true_eq, decide_eq_true_eq]
  exact ⟨BitVec.isLt _, BitVec.isLt _⟩

/-! ## Encoding, then decoding -/

/-- A PULSE word has selector 0 and no bit above its record word. -/
theorem decode_encode_pulse {durW : Nat} {r : Record} (hr : r.wellFormed durW = true) :
    decode durW (encode durW (.pulse r)) = some (.pulse r) := by
  have hrec := (wordOfRecord durW r).isLt
  have hpay : (wordOfRecord durW r).toNat < 2 ^ payloadBits durW :=
    hrec.trans_le (Nat.pow_le_pow_right (by decide) (recBits_le durW))
  rw [decode_eq, encode_pulse_toNat, if_pos (Nat.div_eq_of_lt hpay), if_pos hrec, recordOfWord_wordOfRecord hr]

/-- An ENCODE word has selector 1 and its value in the low 8 bits. -/
theorem decode_encode_encode (durW : Nat) (v : Byte) :
    decode durW (encode durW (.encode v)) = some (.encode v) := by
  have hbyte : 2 ^ 8 ∣ 2 ^ payloadBits durW := Nat.pow_dvd_pow 2 (eight_le durW)
  have hpay : v.toNat < 2 ^ payloadBits durW :=
    v.isLt.trans_le (Nat.pow_le_pow_right (by decide) (eight_le durW))
  have hword := digit_div_mod 1 hpay
  have hvalue : BitVec.ofNat 8 (2 ^ payloadBits durW + v.toNat) = v := by
    apply BitVec.eq_of_toNat_eq
    rw [BitVec.toNat_ofNat, Nat.add_mod, Nat.mod_eq_zero_of_dvd hbyte, Nat.zero_add, Nat.mod_mod,
      Nat.mod_eq_of_lt v.isLt]
  rw [Nat.one_mul] at hword
  rw [decode_eq, encode_encode_toNat, hword.1, hword.2, if_neg (by decide), if_pos rfl, if_pos v.isLt, hvalue]

/-- The RESET word has selector 2 and nothing below it. -/
theorem decode_encode_reset (durW : Nat) : decode durW (encode durW .reset) = some .reset := by
  have hword := digit_div_mod 2 (Nat.two_pow_pos (payloadBits durW))
  rw [Nat.add_zero] at hword
  rw [decode_eq, encode_reset_toNat, hword.1, hword.2, if_neg (by decide), if_neg (by decide), if_pos rfl,
    if_pos rfl]

/-- Settles O1, operation by operation. -/
theorem decodeEncodeRoundTrip : Obligations.DecodeEncodeRoundTrip := by
  intro durW i hi
  cases i with
  | pulse r => exact decode_encode_pulse hi
  | encode v => exact decode_encode_encode durW v
  | reset => exact decode_encode_reset durW

/-! ## Decoding, then encoding -/

/-- Everything a word that decodes can be, on its number (30_encoding.md R73 to R75). -/
theorem decode_cases {durW : Nat} {w : OpWord durW} {i : Instr} (h : decode durW w = some i) :
    (w.toNat < 2 ^ recBits durW ∧ i = .pulse (recordOfWord durW (BitVec.ofNat (recBits durW) w.toNat))) ∨
    (∃ v : Byte, w.toNat = 2 ^ payloadBits durW + v.toNat ∧ i = .encode v) ∨
    (w.toNat = 2 * 2 ^ payloadBits durW ∧ i = .reset) := by
  have hsplit := Nat.div_add_mod' w.toNat (2 ^ payloadBits durW)
  rw [decode_eq] at h
  split at h
  case isTrue hsel =>
    split at h
    case isTrue hrec => exact .inl ⟨hrec, (Option.some.inj h).symm⟩
    case isFalse => cases h
  case isFalse =>
    split at h
    case isTrue hsel =>
      split at h
      case isTrue hbyte =>
        refine .inr (.inl ⟨BitVec.ofNat 8 w.toNat, ?_, (Option.some.inj h).symm⟩)
        have hlow : w.toNat % 2 ^ 8 = w.toNat % 2 ^ payloadBits durW := by
          rw [← Nat.mod_mod_of_dvd w.toNat (Nat.pow_dvd_pow 2 (eight_le durW)), Nat.mod_eq_of_lt hbyte]
        rw [BitVec.toNat_ofNat, hlow]
        rw [hsel] at hsplit
        omega
      case isFalse => cases h
    case isFalse =>
      split at h
      case isTrue hsel =>
        split at h
        case isTrue hzero =>
          refine .inr (.inr ⟨?_, (Option.some.inj h).symm⟩)
          rw [hsel, hzero] at hsplit
          omega
        case isFalse => cases h
      case isFalse => cases h

/-- Settles O2: the number of the decoded operation's word is the number it was decoded from. -/
theorem encodeDecodeRoundTrip : Obligations.EncodeDecodeRoundTrip := by
  intro durW w i h
  obtain ⟨hrec, rfl⟩ | ⟨v, hword, rfl⟩ | ⟨hword, rfl⟩ := decode_cases h
  · refine ⟨recordOfWord_wellFormed durW _, BitVec.eq_of_toNat_eq ?_⟩
    rw [encode_pulse_toNat, wordOfRecord_recordOfWord durW _ hrec]
  · exact ⟨rfl, BitVec.eq_of_toNat_eq (by rw [encode_encode_toNat, hword])⟩
  · exact ⟨rfl, BitVec.eq_of_toNat_eq (by rw [encode_reset_toNat, hword])⟩

/-- A number below `2^recBits` is a PULSE word (30_encoding.md R73). -/
theorem decodeNumber_of_lt_recBits {durW n : Nat} (h : n < 2 ^ recBits durW) :
    decodeNumber durW n = some (.pulse (recordOfWord durW (BitVec.ofNat (recBits durW) n))) := by
  have hpay : n < 2 ^ payloadBits durW := h.trans_le (Nat.pow_le_pow_right (by decide) (recBits_le durW))
  have hop : n < 2 ^ opBits durW := hpay.trans_le (Nat.pow_le_pow_right (by decide) (Nat.le_add_left _ _))
  rw [decodeNumber, decode_eq, BitVec.toNat_ofNat, Nat.mod_eq_of_lt hop, if_pos (Nat.div_eq_of_lt hpay),
    if_pos h]

/-- Settles O5: the fields of the record word, of which `l0` is the top bit. -/
theorem pulseWordOperands : Obligations.PulseWordOperands := by
  intro durW w hw
  obtain ⟨hl0, hdur0, hl1, hdur1⟩ := recordOfWord_fields durW w hw
  have htop : w / 2 ^ (2 * durW + 1) < 2 := by
    apply Nat.div_lt_of_lt_mul
    calc w < 2 ^ (2 * (1 + durW)) := hw
      _ = 2 ^ (2 * durW + 1) * 2 := by ring
  rw [Nat.mod_eq_of_lt htop] at hl0
  exact ⟨_, decodeNumber_of_lt_recBits hw, hl0, hdur0, hl1, hdur1⟩

/-! ## The opcode table -/

/-- A mask of the bits from `k` up to `n` keeps the digits of a number from bit `k` up. -/
theorem and_highMask {n k x : Nat} (hk : k ≤ n) (hx : x < 2 ^ n) :
    x &&& (2 ^ (n - k) - 1) <<< k = x / 2 ^ k * 2 ^ k := by
  have hhigh : x / 2 ^ k < 2 ^ (n - k) :=
    Nat.div_lt_of_lt_mul (by rwa [← Nat.pow_add, Nat.add_sub_cancel' hk])
  have hand : (x &&& (2 ^ (n - k) - 1) <<< k) = (x >>> k &&& (2 ^ (n - k) - 1)) <<< k := by
    apply Nat.eq_of_testBit_eq
    intro i
    by_cases hi : k ≤ i <;> simp [hi, Bool.and_comm]
  rw [hand, Nat.and_two_pow_sub_one_eq_mod, Nat.shiftRight_eq_div_pow, Nat.shiftLeft_eq, Nat.mod_eq_of_lt hhigh]

/-- A masked word against a pattern with nothing below bit `k`: the word's digits from bit `k` up are the
pattern's. -/
theorem and_highMask_eq_iff {w mask pattern : BitVec 36} (k q : Nat) (hk : k ≤ 36)
    (hmask : mask.toNat = (2 ^ (36 - k) - 1) <<< k) (hpattern : pattern.toNat = q * 2 ^ k) :
    w &&& mask = pattern ↔ w.toNat / 2 ^ k = q := by
  rw [← BitVec.toNat_inj, BitVec.toNat_and, hmask, hpattern, and_highMask hk w.isLt]
  exact Nat.mul_left_inj (Nat.two_pow_pos k).ne'

/-- Settles O4: each row's mask keeps what the decoder reads, and the selectors are told apart. -/
theorem opcodeTableRowsDecode : Obligations.OpcodeTableRowsDecode := by
  intro w
  have hpulse : w &&& 0xC00000000#36 = 0x000000000#36 ↔ w.toNat / 2 ^ 34 = 0 :=
    and_highMask_eq_iff 34 0 (by decide) (by decide) (by decide)
  have hencode : w &&& 0xFFFFFFF00#36 = 0x400000000#36 ↔ w.toNat / 2 ^ 8 = 2 ^ 26 :=
    and_highMask_eq_iff 8 (2 ^ 26) (by decide) (by decide) (by decide)
  have hreset : w &&& 0xFFFFFFFFF#36 = 0x800000000#36 ↔ w.toNat / 2 ^ 0 = 2 ^ 35 :=
    and_highMask_eq_iff 0 (2 ^ 35) (by decide) (by decide) (by decide)
  have hlegal : legalWord w = true ↔
      w.toNat / 2 ^ 34 = 0 ∨ w.toNat / 2 ^ 8 = 2 ^ 26 ∨ w.toNat / 2 ^ 0 = 2 ^ 35 := by
    simp only [legalWord, opcodeTable, OpRow.admits, List.any_cons, List.any_nil, Bool.or_false,
      Bool.or_eq_true, beq_iff_eq, hpulse, hencode, hreset]
  rw [hpulse, hencode, hreset, Bool.eq_iff_iff, hlegal]
  rcases selector_cases w with hsel | hsel | hsel | hsel
  · rw [decodeNumber_of_selector_zero hsel]
    simp
    omega
  · rw [decodeNumber_of_selector_one hsel]
    split <;> simp <;> omega
  · rw [decodeNumber_of_selector_two hsel]
    split <;> simp <;> omega
  · rw [decodeNumber_of_selector_three hsel]
    simp
    omega

/-- Settles O7: each sample word's fields, evaluated. -/
theorem sampleWordsDecode : Obligations.SampleWordsDecode := by
  refine ⟨?start, ?highLow, ?lowHigh, ?encode, ?reset⟩ <;> decide

end Sys2Proof.Proofs
end

section
/-!
PROOFS. The pseudo-operations and the textual form (30_encoding.md R84, R85).
-/

namespace Sys2Proof.Proofs

open Sys2Proof.Machine

/-- A bit of a word of any width, by arithmetic. -/
theorem getLsbD_eq_decide {n : Nat} (x : BitVec n) (i : Nat) :
    x.getLsbD i = decide (x.toNat / 2 ^ i % 2 = 1) := by
  rw [← BitVec.testBit_toNat, Nat.testBit_eq_decide_div_mod_eq]

/-- The bits of a byte, indexed by their position. -/
theorem byteBits_eq_range (v : Byte) :
    byteBits v = (List.range 8).map fun k => decide (v.toNat / 2 ^ (7 - k) % 2 = 1) := by
  simp only [← getLsbD_eq_decide]
  rfl

/-- The bits of a word, indexed by their position. -/
theorem wordBits_eq_range (w : Word16) :
    wordBits w = (List.range 16).map fun k => decide (w.toNat / 2 ^ (15 - k) % 2 = 1) := by
  simp only [← getLsbD_eq_decide]
  rfl

/-- Settles O8: the four words evaluated, and the frames from the bits of their value. -/
theorem pseudoOperationWords : Obligations.PseudoOperationWords := by
  refine ⟨by decide, by decide, by decide, by decide, fun v => ?byte, fun w => ?word⟩
  case byte => rw [frame8, byteBits_eq_range, List.map_map, Function.comp_def]
  case word => rw [frame16, wordBits_eq_range, List.map_map, Function.comp_def]

/-- Settles O9: each line, evaluated. -/
theorem textualFormExample : Obligations.TextualFormExample := by
  refine ⟨?pulse, ?encode, ?tooLarge, ?reset⟩ <;> decide

end Sys2Proof.Proofs
end

section
/-!
PROOFS. The decoder's bit rules (41_decoder.md R128 to R134): what a step does with a bit record, what a completion
leaves, and what a step can do to the suppression flags and report.
-/

namespace Sys2Proof.Proofs

open Sys2Proof.Machine Sys2Proof.Laws Sys2Proof.Safety

/-! ## One bit, and the last one -/

/-- The accumulator after a bit, by arithmetic modulo `2^16` (41_decoder.md R129). -/
theorem shiftIn_value_eq (b : Bool) (d : Decoder) :
    (shiftIn b d).value = BitVec.ofNat 16 (2 * d.value.toNat + b.toNat) := by
  have hdouble : d.value <<< 1 = BitVec.ofNat 16 (2 * d.value.toNat) :=
    BitVec.eq_of_toNat_eq (by simp [Nat.shiftLeft_eq, Nat.mul_comm])
  cases b with
  | false => simp [hdouble]
  | true =>
    have hdisjoint : d.value <<< 1 &&& 1#16 = 0#16 := by
      apply BitVec.eq_of_getLsbD_eq
      intro i _
      rcases i with _ | i <;> simp
    rw [shiftIn_value, if_pos rfl, ← BitVec.add_eq_or_of_and_eq_zero _ _ hdisjoint, hdouble]
    simp [BitVec.ofNat_add]

/-- What a completion leaves and reports, whatever the suppression flags are (41_decoder.md R130 to R133). -/
theorem completeFrame_eq (now : Nat) (d : Decoder) :
    completeFrame now d =
      ({ control := .seekingStart
         expectedBits := d.expectedBits
         value := 0#16
         bitCount := 0#5
         sawPreamble := d.sawPreamble
         gotByte := decide (d.expectedBits = .bits8) || d.gotByte
         gotWord := d.gotWord || (decide (d.expectedBits = .bits16) && d.gotByte)
         lastActivity := now },
       reported d.expectedBits d.value d.gotByte d.gotWord) := by
  have hlow : d.value.extractLsb' 0 8 = d.value.setWidth 8 := by
    rw [lowField_eq]
    exact BitVec.eq_of_toNat_eq (by simp)
  rcases emission_cases { d with lastActivity := now } with
    ⟨hwidth, hbyte, hemit⟩ | ⟨hwidth, hbyte, hword, hemit⟩ | ⟨hsuppressed, hemit⟩ <;>
    rw [completeFrame, hemit]
  · simp only at hwidth hbyte
    simp [reported, hwidth, hbyte, hlow]
  · simp only at hwidth hbyte hword
    simp [reported, hwidth, hbyte, hword]
  · obtain ⟨hwidth, hbyte⟩ | ⟨hwidth, hbyte⟩ | ⟨hwidth, hbyte, hword⟩ := hsuppressed
    · simp only at hwidth hbyte
      simp [reported, hwidth, hbyte]
    · simp only at hwidth hbyte
      simp [reported, hwidth, hbyte]
    · simp only at hwidth hbyte hword
      simp [reported, hwidth, hbyte, hword]

section Step

variable {c : Config} {r : Record} {now : Nat} {d : Decoder}

/-- While collecting, two `H` halves that are no start are discarded (R128). -/
theorem pulseStep_of_noLowHalf (hcol : d.control = .collectingBits) (hstart : startRec c r = false)
    (hlow : lowHalf r = none) : pulseStep c r now d = (idleCheck c now d, none) := by
  simp [pulseStep, startRules, bitRules, hcol, hstart, hlow]

/-- While collecting, a bit record is a bit (R129). -/
theorem pulseStep_of_bit {ld : Nat} (hcol : d.control = .collectingBits) (hstart : startRec c r = false)
    (hlow : lowHalf r = some ld) :
    pulseStep c r now d = collectBit now (bitOf c ld) (idleCheck c now d) := by
  simp [pulseStep, startRules, bitRules, hcol, hstart, hlow]

/-- A bit before the frame's last one is shifted in (R129). -/
theorem pulseStep_of_earlyBit {ld : Nat} (hcol : d.control = .collectingBits) (hstart : startRec c r = false)
    (hlow : lowHalf r = some ld) (hearly : d.bitCount + 1#5 ≠ frameBits d.expectedBits) :
    pulseStep c r now d = (shiftIn (bitOf c ld) (idleCheck c now d), none) := by
  rw [pulseStep_of_bit hcol hstart hlow]
  obtain ⟨-, h⟩ | ⟨hlast, -⟩ := collectBit_cases now (bitOf c ld) (idleCheck c now d)
  · exact h
  · simp [hearly] at hlast

/-- The frame's last bit completes it (R130). -/
theorem pulseStep_of_lastBit {ld : Nat} (hcol : d.control = .collectingBits) (hstart : startRec c r = false)
    (hlow : lowHalf r = some ld) (hlast : d.bitCount + 1#5 = frameBits d.expectedBits) :
    pulseStep c r now d = completeFrame now (shiftIn (bitOf c ld) (idleCheck c now d)) := by
  rw [pulseStep_of_bit hcol hstart hlow]
  obtain ⟨hearly, -⟩ | ⟨-, h⟩ := collectBit_cases now (bitOf c ld) (idleCheck c now d)
  · simp [hlast] at hearly
  · exact h

/-- The record is the last bit record of the frame being collected (41_decoder.md R134, R143). -/
def CompletesFrame (c : Config) (r : Record) (d : Decoder) : Prop :=
  d.control = .collectingBits ∧ startRec c r = false ∧ (lowHalf r).isSome = true ∧
    d.bitCount + 1#5 = frameBits d.expectedBits

/-- What every step that completes no frame has in common: it reports nothing, and the flags and the time stamp
are as the idle check leaves them. -/
def StaysQuiet (c : Config) (r : Record) (now : Nat) (d : Decoder) : Prop :=
  (pulseStep c r now d).2 = none ∧
  (pulseStep c r now d).1.gotByte = (idleCheck c now d).gotByte ∧
  (pulseStep c r now d).1.gotWord = (idleCheck c now d).gotWord ∧
  (pulseStep c r now d).1.lastActivity = d.lastActivity

/-- Only the last bit record of a frame reports, sets a flag or writes the time stamp (R130 to R134). -/
theorem pulseStep_quiet_or_completes (c : Config) (r : Record) (now : Nat) (d : Decoder) :
    StaysQuiet c r now d ∨
    CompletesFrame c r d ∧ ∃ b, pulseStep c r now d = completeFrame now (shiftIn b (idleCheck c now d)) := by
  rcases pulseStep_cases c r now d with
    ⟨-, -, -, h⟩ | ⟨-, -, d1, hd1, ⟨-, h⟩ | ⟨-, ld, -, h⟩⟩ | ⟨-, -, -, h⟩ | ⟨-, -, -, h⟩ |
      ⟨hcol, hstart, ld, hlow, h⟩
  · exact .inl (by simp [StaysQuiet, h])
  · exact .inl (by subst hd1; split at h <;> simp [StaysQuiet, h])
  · exact .inl (by subst hd1; split at h <;> simp [StaysQuiet, h])
  · exact .inl (by simp [StaysQuiet, h])
  · exact .inl (by simp [StaysQuiet, h])
  · obtain ⟨-, hbit⟩ | ⟨hlast, hbit⟩ := collectBit_cases now (bitOf c ld) (idleCheck c now d)
    · exact .inl (by simp [StaysQuiet, h, hbit])
    · exact .inr ⟨⟨hcol, hstart, by simp [hlow], by simpa using hlast⟩, bitOf c ld, h.trans hbit⟩

end Step

/-! ## The suppression flags -/

/-- What a step can do to the suppression flags, and report with it: nothing, a byte with its flag set, or after
a byte a word with its flag set (41_decoder.md R131 to R133). -/
inductive FlagMove (gotByte gotWord : Bool) : Option Result → Bool → Bool → Prop
  | silent : FlagMove gotByte gotWord none gotByte gotWord
  | byte (b : Byte) : gotByte = false → FlagMove gotByte gotWord (some (.byte b)) true gotWord
  | word (w : Word16) : gotByte = true → gotWord = false → FlagMove gotByte gotWord (some (.word w)) true true

/-- A completion moves the flags. -/
theorem completeFrame_flags (now : Nat) (d : Decoder) :
    FlagMove d.gotByte d.gotWord (completeFrame now d).2 (completeFrame now d).1.gotByte
      (completeFrame now d).1.gotWord := by
  rw [completeFrame_eq]
  rcases he : d.expectedBits with _ | _ <;> rcases hb : d.gotByte with _ | _ <;> simp only [reported]
  · simpa using FlagMove.byte _ rfl
  · simpa using FlagMove.silent
  · simpa using FlagMove.silent
  · cases hg : d.gotWord
    · simpa using FlagMove.word _ rfl rfl
    · simpa using FlagMove.silent

/-- A step moves the flags that the idle check leaves. -/
theorem pulseStep_flags (c : Config) (r : Record) (now : Nat) (d : Decoder) :
    FlagMove (idleCheck c now d).gotByte (idleCheck c now d).gotWord (pulseStep c r now d).2
      (pulseStep c r now d).1.gotByte (pulseStep c r now d).1.gotWord := by
  obtain ⟨hnone, hbyte, hword, -⟩ | ⟨-, b, h⟩ := pulseStep_quiet_or_completes c r now d
  · rw [hnone, hbyte, hword]
    exact .silent
  · rw [h]
    exact completeFrame_flags now (shiftIn b (idleCheck c now d))

end Sys2Proof.Proofs
end

section
/-!
PROOFS. PULSE on one record (41_decoder.md R128 to R141, 30_encoding.md R80 and R82): the bit rules at the port,
and what a step leaves alone.
-/

namespace Sys2Proof.Proofs

open Sys2Proof.Machine Sys2Proof.Laws Sys2Proof.Safety

/-! ## The idle check across the wrap (60_exceptions.md R209) -/

/-- The idle check at a span after the time stamp, modulo `2^TS_W`. -/
theorem idleCheck_of_span (c : Config) (d : Decoder) (span : Nat) :
    idleCheck c ((d.lastActivity + span) % 2 ^ c.tsW) d =
      if span % 2 ^ c.tsW ≤ c.idleWindow then d else { d with gotByte := false, gotWord := false } := by
  rw [idleCheck, isBoundary, elapsed_add]
  by_cases hspan : span % 2 ^ c.tsW ≤ c.idleWindow
  · rw [if_pos hspan, if_neg (by simpa using hspan)]
  · rw [if_neg hspan, if_pos (by simpa using hspan)]

/-- Settles O16: whole turns of the time base fall away. -/
theorem idleCheckWrapsAround : Obligations.IdleCheckWrapsAround := by
  refine ⟨idleCheck_of_span, fun c d k j hj => ?_⟩
  have hturns : (k * 2 ^ c.tsW + j) % 2 ^ c.tsW ≤ c.idleWindow := by
    rw [Nat.mul_add_mod_self_right]
    exact (Nat.mod_le _ _).trans hj
  rw [idleCheck_of_span, if_pos hturns]

/-! ## The bit rules at the port -/

/-- Settles O20: without a low half only the idle check has an effect. -/
theorem recordWithoutLowHalfIsDiscarded : Obligations.RecordWithoutLowHalfIsDiscarded := by
  intro r s hready hcol hstart hhigh0 hhigh1
  refine exec_pulse_of_pulseStep hready ?_
  rw [pulseStep_of_noLowHalf hcol hstart ((lowHalf_eq_none_iff r).2 ⟨hhigh0, hhigh1⟩), idleCheck_eq_keptFlag]

/-- The classified bit as a number. -/
theorem bitOf_toNat (c : Config) (ld : Nat) : (bitOf c ld).toNat = if ld < c.bitThreshold then 1 else 0 := by
  by_cases h : ld < c.bitThreshold <;> simp [bitOf, h]

/-- Settles O21: a bit before the last one is shifted in. -/
theorem bitIsShiftedIn : Obligations.BitIsShiftedIn := by
  intro r s ld hready hcol hstart hlow hearly
  refine exec_pulse_of_pulseStep hready ?_
  rw [pulseStep_of_earlyBit hcol hstart hlow hearly, idleCheck_eq_keptFlag, ← bitOf_toNat]
  have hvalue := shiftIn_value_eq (bitOf s.config ld) s.dec
  rw [← hvalue]
  rfl

/-- Settles O22: the last bit is shifted in, and the frame of `completeFrame_eq` completed. -/
theorem lastBitCompletesFrame : Obligations.LastBitCompletesFrame := by
  intro r s ld hready hcol hstart hlow hlast
  refine exec_pulse_of_pulseStep hready ?_
  rw [pulseStep_of_lastBit hcol hstart hlow hlast, completeFrame_eq, idleCheck_eq_keptFlag, shiftIn_value_eq,
    bitOf_toNat]
  rfl

/-! ## The port -/

/-- Settles O23: a busy port takes no record. -/
theorem pulseWaitsForConsumer : Obligations.PulseWaitsForConsumer :=
  fun _ _ _ hbusy => exec_pulse_busy hbusy

/-- Settles O24: the record is transferred, and its mark says what becomes of its batch. -/
theorem lastRecordReleasesBatch : Obligations.LastRecordReleasesBatch := by
  intro r s hready
  refine ⟨_, exec_pulse_ready hready, afterRecord_batchOpen .., ?releases, afterRecord_ops ..⟩
  case releases =>
    rw [afterRecord_releases]
    cases s.pinLast <;> rfl

/-- Settles O25: at a ready port by the record's transfer, at a busy one because nothing happens. -/
theorem pulseFrame : Obligations.PulseFrame := by
  intro r s
  cases hport : s.resPending with
  | none => exact ⟨_, exec_pulse_ready hport, rfl, rfl, rfl, rfl, rfl, rfl, rfl, .inr rfl⟩
  | some x => exact ⟨s, exec_pulse_busy hport, rfl, rfl, rfl, rfl, rfl, rfl, rfl, .inl rfl⟩

/-! ## Time and the frame (R140, R141) -/

/-- Two decoders hold the same part of a frame: they agree on all but the suppression flags and the time
stamp. -/
structure SameFrame (d e : Decoder) : Prop where
  control : d.control = e.control
  expectedBits : d.expectedBits = e.expectedBits
  value : d.value = e.value
  bitCount : d.bitCount = e.bitCount
  sawPreamble : d.sawPreamble = e.sawPreamble

section SameFrame

variable {d e : Decoder} (h : SameFrame d e)
include h

theorem sameFrame_idleCheck (c : Config) (a b : Nat) : SameFrame (idleCheck c a d) (idleCheck c b e) :=
  ⟨by simp [h.control], by simp [h.expectedBits], by simp [h.value], by simp [h.bitCount],
    by simp [h.sawPreamble]⟩

theorem sameFrame_setPreamble : SameFrame (setPreamble d) (setPreamble e) :=
  ⟨h.control, h.expectedBits, h.value, h.bitCount, rfl⟩

theorem sameFrame_startFrame : SameFrame (startFrame d) (startFrame e) :=
  ⟨rfl, by simp [h.sawPreamble], rfl, rfl, rfl⟩

theorem sameFrame_shiftIn (x : Bool) : SameFrame (shiftIn x d) (shiftIn x e) :=
  ⟨h.control, h.expectedBits, by simp [h.value], by simp [h.bitCount], h.sawPreamble⟩

theorem sameFrame_completeFrame (a b : Nat) : SameFrame (completeFrame a d).1 (completeFrame b e).1 := by
  rw [completeFrame_eq, completeFrame_eq]
  exact ⟨rfl, h.expectedBits, rfl, rfl, h.sawPreamble⟩

/-- Both decoders count to the same last bit. -/
theorem sameFrame_collectBit (a b : Nat) (x : Bool) :
    SameFrame (collectBit a x d).1 (collectBit b x e).1 := by
  have hlast : d.bitCount + 1#5 = frameBits d.expectedBits ↔ e.bitCount + 1#5 = frameBits e.expectedBits := by
    rw [h.bitCount, h.expectedBits]
  rcases collectBit_cases a x d with ⟨hd, hd'⟩ | ⟨hd, hd'⟩ <;>
    rcases collectBit_cases b x e with ⟨he, he'⟩ | ⟨he, he'⟩
  · rw [hd', he']; exact sameFrame_shiftIn h x
  · exact absurd (hlast.2 he) hd
  · exact absurd (hlast.1 hd) he
  · rw [hd', he']; exact sameFrame_completeFrame (sameFrame_shiftIn h x) a b

theorem sameFrame_bitRules (c : Config) (r : Record) (a b : Nat) :
    SameFrame (bitRules c r a d).1 (bitRules c r b e).1 := by
  unfold bitRules
  rw [← h.control]
  split
  · exact h
  · split
    · exact h
    · exact sameFrame_collectBit h a b _

theorem sameFrame_startRules (c : Config) (r : Record) (a b : Nat) :
    SameFrame (startRules c r a d).1 (startRules c r b e).1 := by
  unfold startRules
  split
  · split
    · exact sameFrame_bitRules (sameFrame_startFrame h) c r a b
    · exact sameFrame_startFrame h
  · exact sameFrame_bitRules h c r a b

theorem sameFrame_pulseStep (c : Config) (r : Record) (a b : Nat) :
    SameFrame (pulseStep c r a d).1 (pulseStep c r b e).1 := by
  have hidle := sameFrame_idleCheck h c a b
  simp only [pulseStep, ← hidle.control]
  split
  · split
    · exact sameFrame_startRules (sameFrame_setPreamble hidle) c r a b
    · exact sameFrame_setPreamble hidle
  · exact sameFrame_startRules hidle c r a b

end SameFrame

/-- Settles O26: the two steps start from the same frame. -/
theorem timeNeverTouchesTheFrame : Obligations.TimeNeverTouchesTheFrame := by
  intro r s a b
  obtain hready | ⟨x, hbusy⟩ := Option.eq_none_or_eq_some s.resPending
  · obtain ⟨hcontrol, hwidth, hvalue, hcount, hsaw⟩ :
        SameFrame (pulseStep s.config r a s.dec).1 (pulseStep s.config r b s.dec).1 :=
      sameFrame_pulseStep ⟨rfl, rfl, rfl, rfl, rfl⟩ s.config r a b
    exact ⟨_, _, exec_pulse_ready (s := { s with pinNow := a }) hready,
      exec_pulse_ready (s := { s with pinNow := b }) hready, hcontrol, hwidth, hvalue, hcount, hsaw⟩
  · exact ⟨_, _, exec_pulse_busy (s := { s with pinNow := a }) hbusy,
      exec_pulse_busy (s := { s with pinNow := b }) hbusy, rfl, rfl, rfl, rfl, rfl⟩

/-! ## Completions (R134, R138, R141) -/

/-- Settles O27: a step stays quiet, or it completes a frame at its own time. -/
theorem timeStampOnlyAtCompletion : Obligations.TimeStampOnlyAtCompletion := by
  intro r s t hexec
  obtain ⟨-, rfl⟩ | ⟨-, rfl⟩ := execPulse_cases r s t hexec
  · exact .inl rfl
  · obtain ⟨-, -, -, hlast⟩ | ⟨⟨hcol, -⟩, b, h⟩ :=
      pulseStep_quiet_or_completes s.config r s.pinNow s.dec
    · exact .inl hlast
    · rw [h, completeFrame_eq]
      exact .inr ⟨hcol, rfl, rfl, rfl⟩

/-- What `reported` answers: a byte of a byte frame, or a word of a word frame that follows a byte. -/
theorem reported_cases {e : FrameWidth} {value : Word16} {gotByte gotWord : Bool} {x : Result}
    (h : reported e value gotByte gotWord = some x) :
    (e = .bits8 ∧ isByte x = true) ∨ (e = .bits16 ∧ gotByte = true ∧ isByte x = false) := by
  rcases e with _ | _ <;> rcases gotByte with _ | _ <;> rcases gotWord with _ | _ <;>
    simp only [reported, Option.some.injEq, reduceCtorEq] at h <;> subst h <;> simp [isByte]

/-- Settles O28: a quiet step reports nothing, so the step completes a frame and reports what it does. -/
theorem resultOnlyAtCompletion : Obligations.ResultOnlyAtCompletion := by
  intro r s t x hready hexec hres
  rw [exec_pulse_ready hready] at hexec
  injection hexec with ht
  subst ht
  rw [afterRecord_resPending] at hres
  obtain ⟨hnone, -⟩ | ⟨⟨hcol, hstart, hlow, hlast⟩, b, h⟩ :=
    pulseStep_quiet_or_completes s.config r s.pinNow s.dec
  · simp [hnone] at hres
  · rw [h, completeFrame_eq] at hres ⊢
    simp only [shiftIn_expectedBits, idleCheck_expectedBits] at hres
    refine ⟨hcol, hstart, hlow, hlast, rfl, ?_, rfl, ?_⟩ <;>
      obtain ⟨he, hx⟩ | ⟨he, hgot, hx⟩ := reported_cases hres
    · simp [he]
    · simp only [afterRecord_dec, hgot, Bool.or_true]
    · simp [he, hx]
    · simp [he, hx]

/-- Settles O29: (I2) says that the preamble flag is clear while collecting. -/
theorem restartBeginsByteFrame : Obligations.RestartBeginsByteFrame := by
  intro r s hinv hready hcol hstart
  obtain ⟨-, hcollecting, -⟩ := hinv
  obtain ⟨hsaw, -⟩ := hcollecting hcol
  refine ⟨_, startRecordBeginsFrame r s hready hstart (.inl hcol), rfl, ?_, rfl⟩
  simp [hsaw, hcol]

end Sys2Proof.Proofs
end

section
/-!
PROOFS. The moves of the machine (60_exceptions.md R211): everything a step that answers a next state did, and what
every such step keeps.
-/

namespace Sys2Proof.Proofs

open Sys2Proof.Machine Sys2Proof.Laws Sys2Proof.Safety

/-! ## What an operation and a step do -/

/-- What an operation does when its turn has come: it waits at a busy port, or it is taken. -/
inductive OpMove (s : State) : Instr → State → Prop
  | pulseWaits (r : Record) (x : Result) : s.resPending = some x → OpMove s (.pulse r) s
  | pulse (r : Record) : s.resPending = none →
      OpMove s (.pulse r) (afterRecord s (pulseStep s.config r s.pinNow s.dec).1
        (pulseStep s.config r s.pinNow s.dec).2)
  | encodeWaits (v : Byte) (q : List Record) : s.txPending = some q → OpMove s (.encode v) s
  | encode (v : Byte) : s.txPending = none →
      OpMove s (.encode v) { s with ops := s.ops.tail, txPending := some (encodeSeq s.config v) }
  | reset : OpMove s .reset (accept (resetBlock s))

/-- An operation that answers a next state made one of its moves. -/
theorem opMove_of_exec {i : Instr} {s t : State} (h : exec i s = .next t) : OpMove s i t := by
  cases i with
  | pulse r =>
    obtain hready | ⟨x, hbusy⟩ := Option.eq_none_or_eq_some s.resPending
    · rw [exec_pulse_ready hready] at h
      cases h
      exact .pulse r hready
    · rw [exec_pulse_busy hbusy] at h
      cases h
      exact .pulseWaits r x hbusy
  | encode v =>
    obtain hfree | ⟨q, hbusy⟩ := Option.eq_none_or_eq_some s.txPending
    · rw [exec_encode_ready hfree] at h
      cases h
      exact .encode v hfree
    · rw [exec_encode_busy hbusy] at h
      cases h
      exact .encodeWaits v q hbusy
  | reset =>
    rw [exec_reset] at h
    cases h
    exact .reset

/-- What a step does, agent by agent. -/
inductive Move (s : State) : State → Prop
  | wait : s.turns = [] → Move s s
  | idle {ts : List Turn} : s.turns = .operation :: ts → s.ops = [] → Move s { s with turns := ts }
  | operation {ts : List Turn} {o : Offer} {os : List Offer} {i : Instr} {t : State} :
      s.turns = .operation :: ts → s.ops = o :: os → decodeNumber s.config.durW o.word = some i →
      OpMove (present o { s with turns := ts }) i t → Move s t
  | consumer {ts : List Turn} : s.turns = .consumer :: ts → Move s (takeResult { s with turns := ts })
  | sink {ts : List Turn} : s.turns = .sink :: ts → Move s (takeSequence { s with turns := ts })
  | rst {ts : List Turn} : s.turns = .rst :: ts → Move s (resetBlock { s with turns := ts })

/-- A step that answers a next state is one of the moves. -/
theorem move_of_step {s t : State} (h : step s = .next t) : Move s t := by
  obtain ⟨hturns, hstep⟩ | ⟨ts, hturns, hops, hstep⟩ | ⟨ts, o, os, i, hturns, hops, hdecode, hstep⟩ |
    ⟨ts, o, os, -, -, -, hstep⟩ | ⟨ts, hturns, hstep⟩ | ⟨ts, hturns, hstep⟩ | ⟨ts, hturns, hstep⟩ :=
      step_cases s <;>
    rw [hstep] at h
  · cases h; exact .wait hturns
  · cases h; exact .idle hturns hops
  · exact .operation hturns hops hdecode (opMove_of_exec h)
  · cases h
  · cases h; exact .consumer hturns
  · cases h; exact .sink hturns
  · cases h; exact .rst hturns

/-! ## The invariants (41_decoder.md R136) -/

/-- (I1) and (I2): the part of the decoder's invariant that speaks of the frame being collected. -/
def FrameInv (d : Decoder) : Prop :=
  (d.control = .seekingStart → d.bitCount = 0#5 ∧ d.value = 0#16) ∧
  (d.control = .collectingBits →
    d.sawPreamble = false ∧ d.bitCount.toNat < (frameBits d.expectedBits).toNat ∧
      d.value.toNat < 2 ^ d.bitCount.toNat)

/-- (I3) is the rest. -/
theorem decoderInv_iff (d : Decoder) :
    DecoderInv d ↔ FrameInv d ∧ (d.gotWord = true → d.gotByte = true) :=
  and_assoc.symm

/-- The idle check does not touch the frame. -/
theorem frameInv_idleCheck {d : Decoder} (c : Config) (now : Nat) (h : FrameInv d) :
    FrameInv (idleCheck c now d) := by
  simpa [FrameInv] using h

/-- While seeking, the preamble flag is free. -/
theorem frameInv_setPreamble {d : Decoder} (h : FrameInv d) (hseek : d.control = .seekingStart) :
    FrameInv (setPreamble d) := by
  obtain ⟨hseeking, -⟩ := h
  exact ⟨hseeking, fun hcol => by simp [hseek] at hcol⟩

/-- A start establishes (I2), whatever was before. -/
theorem frameInv_startFrame (d : Decoder) : FrameInv (startFrame d) := by
  refine ⟨fun hseek => by simp at hseek, fun _ => ⟨rfl, ?_, by simp⟩⟩
  cases hsaw : d.sawPreamble <;> simp [hsaw, frameBits]

/-- A bit before the last one leaves room for the next. -/
theorem frameInv_shiftIn {d : Decoder} (b : Bool) (h : FrameInv d) (hcol : d.control = .collectingBits)
    (hearly : d.bitCount + 1#5 ≠ frameBits d.expectedBits) : FrameInv (shiftIn b d) := by
  obtain ⟨-, hcollecting⟩ := h
  obtain ⟨hsaw, hcount, hvalue⟩ := hcollecting hcol
  refine ⟨fun hseek => by simp [hcol] at hseek, fun _ => ⟨hsaw, ?count, ?value⟩⟩
  all_goals
    have hwidth : (frameBits d.expectedBits).toNat ≤ 16 := by cases d.expectedBits <;> decide
    have hnext : (d.bitCount + 1#5).toNat = d.bitCount.toNat + 1 := by
      rw [BitVec.toNat_add]
      exact Nat.mod_eq_of_lt (by simp; omega)
  case count =>
    have hne : d.bitCount.toNat + 1 ≠ (frameBits d.expectedBits).toNat := fun heq =>
      hearly (BitVec.eq_of_toNat_eq (hnext.trans heq))
    rw [shiftIn_bitCount, shiftIn_expectedBits, hnext]
    omega
  case value =>
    rw [shiftIn_value_eq, shiftIn_bitCount, hnext, BitVec.toNat_ofNat, Nat.pow_succ]
    have hbit : b.toNat ≤ 1 := Bool.toNat_le b
    exact (Nat.mod_le _ _).trans_lt (by omega)

/-- A completion establishes (I1). -/
theorem frameInv_completeFrame (now : Nat) (d : Decoder) : FrameInv (completeFrame now d).1 := by
  rw [completeFrame_eq]
  exact ⟨fun _ => ⟨rfl, rfl⟩, fun hcol => by simp at hcol⟩

/-- A PULSE step keeps (I1) and (I2). -/
theorem frameInv_pulseStep {d : Decoder} (c : Config) (r : Record) (now : Nat) (h : FrameInv d) :
    FrameInv (pulseStep c r now d).1 := by
  have hidle := frameInv_idleCheck c now h
  rcases pulseStep_cases c r now d with
    ⟨hseek, -, -, hstep⟩ | ⟨-, -, d1, -, ⟨-, hstep⟩ | ⟨-, ld, -, hstep⟩⟩ | ⟨-, -, -, hstep⟩ |
      ⟨-, -, -, hstep⟩ | ⟨hcol, -, ld, -, hstep⟩ <;> rw [hstep]
  · exact frameInv_setPreamble hidle (by simp [hseek])
  · exact frameInv_startFrame d1
  · refine frameInv_shiftIn _ (frameInv_startFrame d1) rfl ?_
    cases hsaw : d1.sawPreamble <;> simp [hsaw, frameBits]
  · exact hidle
  · exact hidle
  · obtain ⟨hearly, hbit⟩ | ⟨-, hbit⟩ := collectBit_cases now (bitOf c ld) (idleCheck c now d) <;>
      rw [hbit]
    · exact frameInv_shiftIn _ hidle (by simp [hcol]) hearly
    · exact frameInv_completeFrame now _

/-- Moving the flags keeps (I3). -/
theorem gotByte_of_flagMove {gb gw gb' gw' : Bool} {res : Option Result} (h : FlagMove gb gw res gb' gw')
    (hinv : gw = true → gb = true) : gw' = true → gb' = true := by
  cases h with
  | silent => exact hinv
  | byte => exact fun _ => rfl
  | word => exact fun _ => rfl

/-- A result goes out with its flag set. -/
theorem pendingInv_of_flagMove {gb gw : Bool} {res : Option Result} {d : Decoder}
    (h : FlagMove gb gw res d.gotByte d.gotWord) : PendingInv d res := by
  generalize hbyte : d.gotByte = gb' at h
  generalize hword : d.gotWord = gw' at h
  cases h with
  | silent => exact trivial
  | byte => exact hbyte
  | word => exact ⟨hbyte, hword⟩

/-- A PULSE step keeps the decoder's invariants. -/
theorem decoderInv_pulseStep {d : Decoder} (c : Config) (r : Record) (now : Nat) (h : DecoderInv d) :
    DecoderInv (pulseStep c r now d).1 := by
  obtain ⟨hframe, hflags⟩ := (decoderInv_iff d).1 h
  refine (decoderInv_iff _).2
    ⟨frameInv_pulseStep c r now hframe, gotByte_of_flagMove (pulseStep_flags c r now d) ?_⟩
  simp only [idleCheck_gotWord, idleCheck_gotByte, Bool.and_eq_true]
  exact fun ⟨hword, hkept⟩ => ⟨hflags hword, hkept⟩

/-- A PULSE step leaves a time stamp of `TS_W` bits. -/
theorem lastActivity_pulseStep_lt {d : Decoder} {b : Nat} (c : Config) (r : Record) (now : Nat)
    (hlast : d.lastActivity < b) (hnow : now < b) : (pulseStep c r now d).1.lastActivity < b := by
  obtain ⟨-, -, -, h⟩ | ⟨-, x, h⟩ := pulseStep_quiet_or_completes c r now d
  · rwa [h]
  · rw [h, completeFrame_eq]
    exact hnow

/-- The reset values meet the decoder's invariants. -/
theorem decoderInv_reset : DecoderInv Decoder.reset := by
  unfold DecoderInv
  decide

/-- A reset establishes everything but the bound of the port's time, which it does not touch. -/
theorem stateInv_resetBlock {s : State} (h : StateInv s) : StateInv (resetBlock s) := by
  obtain ⟨-, -, -, -, hnow⟩ := h
  exact ⟨decoderInv_reset, trivial, fun _ hq => by simp at hq, Nat.two_pow_pos _, hnow⟩

/-- An operation keeps the invariants. -/
theorem stateInv_opMove {i : Instr} {s t : State} (h : StateInv s) (hmove : OpMove s i t) : StateInv t := by
  cases hmove with
  | pulseWaits => exact h
  | pulse r =>
    obtain ⟨hdec, -, hseq, hlast, hnow⟩ := h
    exact ⟨decoderInv_pulseStep _ r _ hdec, pendingInv_of_flagMove (pulseStep_flags ..), hseq,
      lastActivity_pulseStep_lt _ r _ hlast hnow, hnow⟩
  | encodeWaits => exact h
  | encode v =>
    obtain ⟨hdec, hres, -, htimes⟩ := h
    exact ⟨hdec, hres, fun q hq => ⟨v, (Option.some.inj hq).symm⟩, htimes⟩
  | reset =>
    have hreset : StateInv (resetBlock s) := stateInv_resetBlock h
    exact hreset

/-- Presenting an operation puts a time of `TS_W` bits at the port. -/
theorem stateInv_present {s : State} (o : Offer) (h : StateInv s) : StateInv (present o s) := by
  obtain ⟨hdec, hres, hseq, hlast, -⟩ := h
  exact ⟨hdec, hres, hseq, hlast, Nat.mod_lt _ (Nat.two_pow_pos _)⟩

/-- Settles O51, move by move. -/
theorem stepKeepsInvariants : Obligations.StepKeepsInvariants := by
  intro s t h hstep
  cases move_of_step hstep with
  | wait => exact h
  | idle => exact h
  | @operation ts o _ _ _ _ _ _ hop =>
    have hturn : StateInv { s with turns := ts } := h
    exact stateInv_opMove (stateInv_present o hturn) hop
  | consumer =>
    obtain ⟨hdec, -, hseq, htimes⟩ := h
    exact ⟨by simpa using hdec, by simp [PendingInv], by simpa using hseq, by simpa using htimes⟩
  | sink =>
    obtain ⟨hdec, hres, -, htimes⟩ := h
    exact ⟨by simpa using hdec, by simpa using hres, by simp, by simpa using htimes⟩
  | @rst ts =>
    have hturn : StateInv { s with turns := ts } := h
    exact stateInv_resetBlock hturn

/-- Settles O52. -/
theorem resetMeetsInvariants : Obligations.ResetMeetsInvariants := by
  refine ⟨decoderInv_reset, trivial, fun q hq => ?sequence, by decide, by decide⟩
  case sequence => cases hq

end Sys2Proof.Proofs
end

section
/-!
PROOFS. The ports and the schedule (30_encoding.md R77 to R83, 60_exceptions.md R213): who takes what, and when.
-/

namespace Sys2Proof.Proofs

open Sys2Proof.Machine Sys2Proof.Laws Sys2Proof.Safety

/-! ## Steps on a known turn -/

section Turns

variable {s : State} {ts : List Turn} {o : Offer} {os : List Offer}

/-- On an operation's turn the decoded operation runs. -/
theorem step_operation {i : Instr} (hturns : s.turns = .operation :: ts) (hops : s.ops = o :: os)
    (hdecode : decodeNumber s.config.durW o.word = some i) :
    step s = exec i (present o { s with turns := ts }) := by
  simp only [step, hturns, hops, hdecode]

/-- On an operation's turn a word that does not decode is refused. -/
theorem step_reserved (hturns : s.turns = .operation :: ts) (hops : s.ops = o :: os)
    (hdecode : decodeNumber s.config.durW o.word = none) :
    step s = .refused (.reservedEncoding o.word) := by
  simp only [step, hturns, hops, hdecode]

theorem step_idle (hturns : s.turns = .operation :: ts) (hops : s.ops = []) :
    step s = .next { s with turns := ts } := by
  simp only [step, hturns, hops]

theorem step_wait (hturns : s.turns = []) : step s = .next s := by
  simp only [step, hturns]

theorem step_consumer (hturns : s.turns = .consumer :: ts) :
    step s = .next (takeResult { s with turns := ts }) := by
  simp only [step, hturns]

theorem step_sink (hturns : s.turns = .sink :: ts) :
    step s = .next (takeSequence { s with turns := ts }) := by
  simp only [step, hturns]

theorem step_rst (hturns : s.turns = .rst :: ts) :
    step s = .next (resetBlock { s with turns := ts }) := by
  simp only [step, hturns]

end Turns

/-- Settles O48: what `present` puts at the port is what the statement writes out. -/
theorem stepRunsDecodedOperation : Obligations.StepRunsDecodedOperation :=
  fun _ _ _ _ _ hturns hops hdecode => step_operation hturns hops hdecode

/-- Settles O58. -/
theorem noInputMeansWaiting : Obligations.NoInputMeansWaiting :=
  ⟨fun _ => step_wait, fun _ _ => step_idle, step_wait rfl⟩

/-- What the consumer's turn takes, written out. -/
theorem takeResult_eq (s : State) :
    takeResult s = { s with resPending := none, results := s.results ++ s.resPending.toList } := by
  obtain ⟨config, dec, _ | x, txPending⟩ := s <;> simp [takeResult]

/-- What the sink's turn takes, written out. -/
theorem takeSequence_eq (s : State) :
    takeSequence s = { s with txPending := none, sequences := s.sequences ++ s.txPending.toList } := by
  obtain ⟨config, dec, resPending, _ | q, batchOpen⟩ := s <;> simp [takeSequence]

/-- Settles O57. -/
theorem consumerAndSinkTurns : Obligations.ConsumerAndSinkTurns := by
  refine fun s ts => ⟨fun hturns => ?consumer, fun hturns => ?sink⟩
  case consumer => rw [step_consumer hturns, takeResult_eq]
  case sink => rw [step_sink hturns, takeSequence_eq]

/-- The block's reset, written out (70_reset_and_hazards.md R230). -/
theorem resetBlock_eq (s : State) :
    resetBlock s =
      { s with
        dec :=
          { control := .seekingStart, expectedBits := .bits8, value := 0#16, bitCount := 0#5,
            sawPreamble := false, gotByte := false, gotWord := false, lastActivity := 0 }
        resPending := none
        txPending := none
        batchOpen := false
        releases := s.releases + s.batchOpen.toNat } := by
  cases h : s.batchOpen <;> simp [resetBlock, Decoder.reset, h]

/-- Settles O46: as an operation and as the input the block's reset is the same. -/
theorem resetWritesEveryField : Obligations.ResetWritesEveryField := by
  refine fun s => ⟨?operation, fun ts hturns => ?input⟩
  case operation => rw [exec_reset, resetBlock_eq]; rfl
  case input => rw [step_rst hturns, resetBlock_eq]

/-- Settles O40: a busy encoder port takes no request. -/
theorem encodeWaitsForSink : Obligations.EncodeWaitsForSink :=
  fun _ _ _ hbusy => exec_encode_busy hbusy

/-- Settles O45: PULSE leaves the encoder's port and ENCODE the decoder's, so each still finds its own ready, and
both take the head of what waits. -/
theorem pulseAndEncodeCommute : Obligations.PulseAndEncodeCommute :=
  fun _ _ _ hready hfree =>
    ⟨_, _, _, exec_pulse_ready hready, exec_encode_ready hfree, exec_encode_ready hfree,
      exec_pulse_ready hready⟩

/-- Settles O59. -/
theorem portSignals : Obligations.PortSignals := by
  refine ⟨fun b => ⟨rfl, ?byte⟩, fun w => ⟨rfl, rfl⟩, fun s => ⟨?pulse, ?encode⟩⟩
  case byte => exact BitVec.toNat_setWidth_of_le (by decide)
  case pulse => cases h : s.resPending <;> simp [pinReady, resValid, h]
  case encode => cases h : s.txPending <;> simp [encReady, txValid, h]

/-! ## Reserved words (30_encoding.md R76, R77) -/

/-- At the default width a word that the opcode table does not accept does not decode. -/
theorem decodeNumber_of_not_legalWord {n : Nat} (h : legalWord (BitVec.ofNat 36 n) = false) :
    decodeNumber 16 n = none := by
  obtain ⟨-, -, -, hlegal⟩ := opcodeTableRowsDecode (BitVec.ofNat 36 n)
  have hword : decodeNumber 16 (BitVec.ofNat 36 n).toNat = decodeNumber 16 n := by
    rw [decodeNumber, decodeNumber, BitVec.toNat_ofNat]
    exact congrArg (decode 16) (BitVec.eq_of_toNat_eq (Nat.mod_mod n (2 ^ 36)))
  rwa [h, hword, Option.isSome_eq_false_iff, Option.isNone_iff_eq_none] at hlegal

/-- Settles O49: the first step refuses the word, and a run stops with its first refusal. -/
theorem reservedWordStopsTheRun : Obligations.ReservedWordStopsTheRun := by
  intro s o os ts hturns hops hreserved
  have hdecode : decodeNumber s.config.durW o.word = none := by
    obtain hnone | ⟨hwidth, hillegal⟩ := hreserved
    · exact hnone
    · rw [hwidth]
      exact decodeNumber_of_not_legalWord hillegal
  have hstep := step_reserved hturns hops hdecode
  exact ⟨hstep, fun k => run_refused k s _ hstep⟩

/-! ## What a move keeps and takes -/

/-- Settles O53: no move writes the parameters. -/
theorem parametersNeverChange : Obligations.ParametersNeverChange := by
  intro s t hstep
  cases move_of_step hstep with
  | wait => rfl
  | idle => rfl
  | operation _ _ _ hop => cases hop <;> rfl
  | consumer => exact takeResult_config _
  | sink => exact takeSequence_config _
  | rst => rfl

/-- Settles O54: only an operation that its port accepts leaves the list, and it is the head. -/
theorem operationsAreTakenInOrder : Obligations.OperationsAreTakenInOrder := by
  intro s t hstep
  cases move_of_step hstep with
  | wait => exact .inl rfl
  | idle => exact .inl rfl
  | @operation ts o os i _ hturns hops hdecode hop =>
    cases hop with
    | pulseWaits => exact .inl rfl
    | pulse r hready =>
      exact .inr ⟨o, _, hturns, by simp [hops], hdecode, .inl ⟨r, rfl, hready, rfl, rfl⟩⟩
    | encodeWaits => exact .inl rfl
    | encode v hfree =>
      exact .inr ⟨o, _, hturns, by simp [hops], hdecode, .inr (.inl ⟨v, rfl, hfree, rfl, rfl, rfl⟩)⟩
    | reset => exact .inr ⟨o, _, hturns, by simp [hops], hdecode, .inr (.inr ⟨rfl, rfl, rfl, rfl⟩)⟩
  | consumer => exact .inl (takeResult_ops _)
  | sink => exact .inl (takeSequence_ops _)
  | rst => exact .inl rfl

/-- Settles O55: with a result presented, no record is taken, and only the consumer and a reset remove it. -/
theorem resultHeldUntilTaken : Obligations.ResultHeldUntilTaken := by
  intro s t x hres hstep
  cases move_of_step hstep with
  | wait => exact .inl ⟨hres, rfl, rfl⟩
  | idle => exact .inl ⟨hres, rfl, rfl⟩
  | @operation ts o os i _ hturns hops hdecode hop =>
    cases hop with
    | pulseWaits => exact .inl ⟨hres, rfl, rfl⟩
    | pulse r hready => simp [hres] at hready
    | encodeWaits => exact .inl ⟨hres, rfl, rfl⟩
    | encode => exact .inl ⟨hres, rfl, rfl⟩
    | reset => exact .inr (.inr ⟨.inr ⟨hturns, o, by simp [hops], hdecode⟩, rfl, rfl, rfl⟩)
  | consumer hturns => exact .inr (.inl ⟨by simpa using hturns, by simp, by simp [hres], by simp⟩)
  | sink => exact .inl ⟨by simpa using hres, by simp, by simp⟩
  | rst hturns => exact .inr (.inr ⟨.inl hturns, rfl, rfl, rfl⟩)

/-- Settles O56: with a sequence offered, no request is accepted, and only the sink and a reset remove it. -/
theorem sequenceHeldUntilTaken : Obligations.SequenceHeldUntilTaken := by
  intro s t q hseq hstep
  cases move_of_step hstep with
  | wait => exact .inl ⟨hseq, rfl⟩
  | idle => exact .inl ⟨hseq, rfl⟩
  | @operation ts o os i _ hturns hops hdecode hop =>
    cases hop with
    | pulseWaits => exact .inl ⟨hseq, rfl⟩
    | pulse => exact .inl ⟨hseq, rfl⟩
    | encodeWaits => exact .inl ⟨hseq, rfl⟩
    | encode v hfree => simp [hseq] at hfree
    | reset => exact .inr (.inr ⟨.inr ⟨hturns, o, by simp [hops], hdecode⟩, rfl, rfl, rfl⟩)
  | consumer => exact .inl ⟨by simpa using hseq, by simp⟩
  | sink hturns => exact .inr (.inl ⟨by simpa using hturns, by simp, by simp [hseq]⟩)
  | rst hturns => exact .inr (.inr ⟨.inl hturns, rfl, rfl, rfl⟩)

end Sys2Proof.Proofs
end

section
/-!
PROOFS. The outcome classes at the default options (60_exceptions.md R205): one class for each way a step ends.
-/

namespace Sys2Proof.Proofs

open Sys2Proof.Machine Sys2Proof.Laws Sys2Proof.Safety

/-- The idle check keeps the flags exactly when the difference is at most the idle window. -/
theorem decide_le_idleWindow (c : Config) (now : Nat) (d : Decoder) :
    decide (((now : Int) - d.lastActivity) % (2 ^ c.tsW : Nat) ≤ c.idleWindow) = !isBoundary c now d := by
  simpa [keptFlag] using keptFlag_eq true { State.reset with config := c, dec := d, pinNow := now }

section Classes

variable {c : Config} {r : Record} {now : Nat} {d : Decoder}
theorem stepClasses_of_preamble (hpf : c.preFallthrough = false) (hseek : d.control = .seekingStart)
    (hpre : preRec c r = true) : stepClasses c r now d = [.preamble] := by
  simp [stepClasses, hpf, hseek, hpre]

theorem stepClasses_of_start (hsf : c.startFallthrough = false)
    (hseek : d.control = .seekingStart) (hpre : preRec c r = false)
    (hstart : startRec c r = true) : stepClasses c r now d = [.start] := by
  simp [stepClasses, hsf, hseek, hpre, hstart]

theorem stepClasses_of_neither (hseek : d.control = .seekingStart) (hpre : preRec c r = false)
    (hstart : startRec c r = false) : stepClasses c r now d = [.discardSeek] := by
  simp [stepClasses, hseek, hpre, hstart]

theorem stepClasses_of_restart (hsf : c.startFallthrough = false)
    (hcol : d.control = .collectingBits) (hstart : startRec c r = true) :
    stepClasses c r now d = [.restart] := by
  simp [stepClasses, hsf, hcol, hstart]

theorem stepClasses_of_noLowHalf (hcol : d.control = .collectingBits) (hstart : startRec c r = false)
    (hlow : lowHalf r = none) : stepClasses c r now d = [.discardNoLow] := by
  simp [stepClasses, hcol, hstart, hlow]

theorem stepClasses_of_earlyBit (hcol : d.control = .collectingBits) (hstart : startRec c r = false)
    (hlow : (lowHalf r).isSome = true) (hearly : d.bitCount + 1#5 ≠ frameBits d.expectedBits) :
    stepClasses c r now d = [.bit] := by
  obtain ⟨ld, hld⟩ := Option.isSome_iff_exists.1 hlow
  simp [stepClasses, bitClass, hcol, hstart, hld, hearly]

theorem stepClasses_of_completes (h : CompletesFrame c r d) :
    stepClasses c r now d = [completionClass (idleCheck c now d)] := by
  obtain ⟨hcol, hstart, hlow, hlast⟩ := h
  obtain ⟨ld, hld⟩ := Option.isSome_iff_exists.1 hlow
  simp [stepClasses, bitClass, hcol, hstart, hld, hlast]

/-- A step that completes no frame reports nothing. -/
theorem pulseStep_snd_of_not_completes (h : ¬ CompletesFrame c r d) : (pulseStep c r now d).2 = none := by
  obtain ⟨hnone, -⟩ | ⟨hcompletes, -⟩ := pulseStep_quiet_or_completes c r now d
  · exact hnone
  · exact absurd hcompletes h

end Classes

/-- Settles O30: along the rules in their order, and at a completion along the width and the flags. -/
theorem stepClassesFollowTable : Obligations.StepClassesFollowTable := by
  refine ⟨fun c r now d hpf hsf => ?_, by decide⟩
  simp only [decide_le_idleWindow]
  cases hc : d.control with
  | seekingStart =>
    have hquiet : (pulseStep c r now d).2 = none :=
      pulseStep_snd_of_not_completes fun h => by simp [CompletesFrame, hc] at h
    cases hp : preRec c r with
    | true => exact ⟨_, stepClasses_of_preamble hpf hc hp, by simp [hquiet]⟩
    | false =>
      cases hs : startRec c r with
      | true => exact ⟨_, stepClasses_of_start hsf hc hp hs, by simp [hquiet]⟩
      | false => exact ⟨_, stepClasses_of_neither hc hp hs, by simp [pulseStep_of_neither hc hp hs]⟩
  | collectingBits =>
    cases hs : startRec c r with
    | true =>
      have hquiet : (pulseStep c r now d).2 = none :=
        pulseStep_snd_of_not_completes fun h => by simp [CompletesFrame, hs] at h
      exact ⟨_, stepClasses_of_restart hsf hc hs, by simp [hquiet]⟩
    | false =>
      cases hl : lowHalf r with
      | none =>
        exact ⟨_, stepClasses_of_noLowHalf hc hs hl, by simp [pulseStep_of_noLowHalf hc hs hl]⟩
      | some ld =>
        have hlow : (lowHalf r).isSome = true := by simp [hl]
        by_cases hlast : d.bitCount + 1#5 = frameBits d.expectedBits
        case neg =>
          exact ⟨_, stepClasses_of_earlyBit hc hs hlow hlast,
            by simp [hlast, pulseStep_of_earlyBit hc hs hl hlast]⟩
        case pos =>
          refine ⟨_, stepClasses_of_completes ⟨hc, hs, hlow, hlast⟩, ?_⟩
          rw [pulseStep_of_lastBit hc hs hl hlast, completeFrame_eq]
          cases he : d.expectedBits with
          | bits8 =>
            rw [he] at hlast
            cases hb : d.gotByte && !isBoundary c now d <;>
              simp [completionClass, reported, he, hb, hlast]
          | bits16 =>
            rw [he] at hlast
            cases hb : d.gotByte && !isBoundary c now d with
            | false => simp [completionClass, reported, he, hb, hlast]
            | true =>
              cases hw : d.gotWord && !isBoundary c now d <;>
                simp [completionClass, reported, he, hb, hw, hlast]

end Sys2Proof.Proofs
end

section
/-!
PROOFS. Runs of records (41_decoder.md R135 to R142): batches, what a transaction reports, and what the reset
values of the width and the time stamp cannot reach.
-/

namespace Sys2Proof.Proofs

open Sys2Proof.Machine Sys2Proof.Laws Sys2Proof.Safety

/-! ## One record after another -/

theorem runPulses_nil (c : Config) (d : Decoder) : runPulses c [] d = (d, []) := rfl

theorem runPulses_cons (c : Config) (r : Record) (now : Nat) (ps : List (Record × Nat)) (d : Decoder) :
    runPulses c ((r, now) :: ps) d =
      ((runPulses c ps (pulseStep c r now d).1).1,
       (pulseStep c r now d).2.toList ++ (runPulses c ps (pulseStep c r now d).1).2) := rfl

/-- A first step that reports nothing only hands on its decoder. -/
theorem runPulses_cons_of_silent {c : Config} {r : Record} {now : Nat} {d e : Decoder}
    (h : pulseStep c r now d = (e, none)) (ps : List (Record × Nat)) :
    runPulses c ((r, now) :: ps) d = runPulses c ps e := by
  rw [runPulses_cons, h]
  rfl

/-- Two batches are one run (R135). -/
theorem runPulses_append (c : Config) (xs ys : List (Record × Nat)) (d : Decoder) :
    runPulses c (xs ++ ys) d =
      ((runPulses c ys (runPulses c xs d).1).1,
       (runPulses c xs d).2 ++ (runPulses c ys (runPulses c xs d).1).2) := by
  induction xs generalizing d with
  | nil => rfl
  | cons p xs ih =>
    obtain ⟨r, now⟩ := p
    rw [List.cons_append, runPulses_cons, runPulses_cons, ih, List.append_assoc]

/-- Settles O31: by the records of the first batch; and the mark is read by no rule of the decoder. -/
theorem batchBoundariesAreInvisible : Obligations.BatchBoundariesAreInvisible := by
  refine ⟨runPulses_append, fun r s => ?mark⟩
  case mark =>
    obtain hready | ⟨x, hbusy⟩ := Option.eq_none_or_eq_some s.resPending
    · exact ⟨_, _, exec_pulse_ready (s := { s with pinLast := false }) hready,
        exec_pulse_ready (s := { s with pinLast := true }) hready, rfl, rfl⟩
    · exact ⟨_, _, exec_pulse_busy (s := { s with pinLast := false }) hbusy,
        exec_pulse_busy (s := { s with pinLast := true }) hbusy, rfl, rfl⟩

/-! ## What a transaction reports (R137, R142) -/

@[simp] theorem byteCount_nil : byteCount [] = 0 := rfl
@[simp] theorem wordCount_nil : wordCount [] = 0 := rfl

@[simp] theorem byteCount_byte (b : Byte) (rs : List Result) : byteCount (.byte b :: rs) = byteCount rs + 1 :=
  List.countP_cons_of_pos rfl

@[simp] theorem byteCount_word (w : Word16) (rs : List Result) : byteCount (.word w :: rs) = byteCount rs :=
  List.countP_cons_of_neg Bool.false_ne_true

@[simp] theorem wordCount_byte (b : Byte) (rs : List Result) : wordCount (.byte b :: rs) = wordCount rs :=
  List.countP_cons_of_neg Bool.false_ne_true

@[simp] theorem wordCount_word (w : Word16) (rs : List Result) : wordCount (.word w :: rs) = wordCount rs + 1 :=
  List.countP_cons_of_pos rfl

/-- What the rest of a transaction may report, from the flags it starts with: with what was reported before at most
one byte and one word, and every word after exactly one byte. -/
def TransactionLaw (gotByte gotWord : Bool) (rs : List Result) : Prop :=
  byteCount rs + gotByte.toNat ≤ 1 ∧ wordCount rs + gotWord.toNat ≤ 1 ∧
  ∀ pre w post, rs = pre ++ .word w :: post → byteCount pre + gotByte.toNat = 1

theorem transactionLaw_nil (gb gw : Bool) : TransactionLaw gb gw [] := by
  refine ⟨?_, ?_, fun pre w post h => by simp at h⟩
  · simpa using Bool.toNat_le gb
  · simpa using Bool.toNat_le gw

/-- A step that moves the flags may come before what the law allows afterwards. -/
theorem transactionLaw_of_flagMove {gb gw gb' gw' : Bool} {res : Option Result} {rs : List Result}
    (hmove : FlagMove gb gw res gb' gw') (hlaw : TransactionLaw gb' gw' rs) :
    TransactionLaw gb gw (res.toList ++ rs) := by
  obtain ⟨hbytes, hwords, horder⟩ := hlaw
  cases hmove with
  | silent => exact ⟨hbytes, hwords, horder⟩
  | byte b hclear =>
    subst hclear
    refine ⟨by simpa using hbytes, by simpa using hwords, ?_⟩
    intro pre w post hsplit
    obtain ⟨-, heq⟩ | ⟨pre', rfl, heq⟩ := List.cons_eq_append_iff.1 hsplit
    · cases heq
    · simpa using horder pre' w post heq
  | word v hset hclear =>
    subst hset hclear
    refine ⟨by simpa using hbytes, by simpa using hwords, ?_⟩
    intro pre w post hsplit
    obtain ⟨rfl, -⟩ | ⟨pre', rfl, heq⟩ := List.cons_eq_append_iff.1 hsplit
    · rfl
    · simpa using horder pre' w post heq

/-- Within a transaction the law holds from the flags as they are: no idle check clears them. -/
theorem transactionLaw_runPulses (c : Config) (ps : List (Record × Nat)) (d : Decoder)
    (hwithin : withinTransaction c ps d) : TransactionLaw d.gotByte d.gotWord (runPulses c ps d).2 := by
  induction ps generalizing d with
  | nil => exact transactionLaw_nil _ _
  | cons p ps ih =>
    obtain ⟨r, now⟩ := p
    obtain ⟨hnoBoundary, hrest⟩ := hwithin
    have hmove := pulseStep_flags c r now d
    simp only [idleCheck_gotByte, idleCheck_gotWord, hnoBoundary, Bool.not_false, Bool.and_true] at hmove
    exact transactionLaw_of_flagMove hmove (ih _ hrest)

/-- A boundary step begins a transaction: the law holds from clear flags. -/
theorem transactionLaw_of_boundary {c : Config} {r : Record} {now : Nat} {ps : List (Record × Nat)} {d : Decoder}
    (hboundary : isBoundary c now d = true) (hwithin : withinTransaction c ps (pulseStep c r now d).1) :
    TransactionLaw false false (runPulses c ((r, now) :: ps) d).2 := by
  have hmove := pulseStep_flags c r now d
  simp only [idleCheck_gotByte, idleCheck_gotWord, hboundary, Bool.not_true, Bool.and_false] at hmove
  exact transactionLaw_of_flagMove hmove (transactionLaw_runPulses c ps _ hwithin)

/-- Settles O32: both ways a transaction begins, its law holds from clear flags. -/
theorem atMostOneResultOfEachKind : Obligations.AtMostOneResultOfEachKind := by
  intro c ps d hbegin
  have hlaw : TransactionLaw false false (runPulses c ps d).2 := by
    obtain ⟨hbyte, hword, hwithin⟩ | ⟨r, now, rest, rfl, hboundary, hwithin⟩ := hbegin
    · simpa only [hbyte, hword] using transactionLaw_runPulses c ps d hwithin
    · exact transactionLaw_of_boundary hboundary hwithin
  exact hlaw

/-- Every word reported has a byte before it, unless the byte flag is already set. -/
def WordsFollowBytes (gotByte : Bool) (rs : List Result) : Prop :=
  ∀ pre w post, rs = pre ++ .word w :: post → gotByte = true ∨ 0 < byteCount pre

/-- A step that moves the flags may come before words that follow bytes. -/
theorem wordsFollowBytes_of_flagMove {gb gw gb' gw' : Bool} {res : Option Result} {rs : List Result}
    (hmove : FlagMove gb gw res gb' gw') (hlaw : WordsFollowBytes gb' rs) :
    WordsFollowBytes gb (res.toList ++ rs) := by
  intro pre w post hsplit
  cases hmove with
  | silent => exact hlaw pre w post hsplit
  | byte b _ =>
    obtain ⟨-, heq⟩ | ⟨pre', rfl, -⟩ := List.cons_eq_append_iff.1 hsplit
    · cases heq
    · exact .inr (by simp)
  | word v hset _ => exact .inl hset

/-- Words follow bytes in every run, whatever boundary steps are in it: the idle check only clears the flag. -/
theorem wordsFollowBytes_runPulses (c : Config) (ps : List (Record × Nat)) (d : Decoder) :
    WordsFollowBytes d.gotByte (runPulses c ps d).2 := by
  induction ps generalizing d with
  | nil => intro pre w post h; simp [runPulses_nil] at h
  | cons p ps ih =>
    obtain ⟨r, now⟩ := p
    have hlaw := wordsFollowBytes_of_flagMove (pulseStep_flags c r now d) (ih _)
    intro pre w post hsplit
    refine (hlaw pre w post hsplit).imp_left fun hkept => ?_
    rw [idleCheck_gotByte, Bool.and_eq_true] at hkept
    exact hkept.1

/-- Settles O33: after the boundary's idle check the byte flag is clear. -/
theorem wordNeedsByteAfterBoundary : Obligations.WordNeedsByteAfterBoundary := by
  intro c r now ps d pre post w hboundary hsplit
  have hlaw := wordsFollowBytes_of_flagMove (pulseStep_flags c r now d) (wordsFollowBytes_runPulses c ps _)
  obtain hkept | hbyte := hlaw pre w post hsplit
  · simp [hboundary] at hkept
  · exact hbyte

/-! ## The reset values that reach no result (10_state.md R33) -/

/-- Two decoders that have reported nothing yet and differ at most in the time stamp, which no idle check can use
while both flags are clear, and while seeking in the width, which the next start writes. -/
structure Unobserved (d e : Decoder) : Prop where
  control : d.control = e.control
  width : d.control = .collectingBits → d.expectedBits = e.expectedBits
  value : d.value = e.value
  bitCount : d.bitCount = e.bitCount
  sawPreamble : d.sawPreamble = e.sawPreamble
  gotByte : d.gotByte = false ∧ e.gotByte = false
  gotWord : d.gotWord = false ∧ e.gotWord = false

/-- The same result, and next states that are equal or differ in nothing observed. -/
def SameOutcome (p q : Decoder × Option Result) : Prop :=
  p.2 = q.2 ∧ (p.1 = q.1 ∨ Unobserved p.1 q.1)

section Unobserved

variable {d e : Decoder} (h : Unobserved d e)
include h

theorem unobserved_idleCheck (c : Config) (now : Nat) : Unobserved (idleCheck c now d) (idleCheck c now e) :=
  ⟨by simp [h.control], by simpa using h.width, by simp [h.value], by simp [h.bitCount], by simp [h.sawPreamble],
    by simp [h.gotByte], by simp [h.gotWord]⟩

theorem unobserved_setPreamble : Unobserved (setPreamble d) (setPreamble e) :=
  ⟨h.control, h.width, h.value, h.bitCount, rfl, h.gotByte, h.gotWord⟩

/-- A start writes the width of both from the preamble flag. -/
theorem unobserved_startFrame : Unobserved (startFrame d) (startFrame e) :=
  ⟨rfl, fun _ => by simp [h.sawPreamble], rfl, rfl, rfl, h.gotByte, h.gotWord⟩

theorem unobserved_shiftIn (b : Bool) : Unobserved (shiftIn b d) (shiftIn b e) :=
  ⟨h.control, h.width, by simp [h.value], by simp [h.bitCount], h.sawPreamble, h.gotByte, h.gotWord⟩

/-- A completion writes the time stamp of both. -/
theorem completeFrame_eq_of_unobserved (now : Nat) (hcol : d.control = .collectingBits) :
    completeFrame now d = completeFrame now e := by
  rw [completeFrame_eq, completeFrame_eq, h.width hcol, h.value, h.sawPreamble, h.gotByte.1, h.gotByte.2,
    h.gotWord.1, h.gotWord.2]

theorem sameOutcome_collectBit (now : Nat) (b : Bool) (hcol : d.control = .collectingBits) :
    SameOutcome (collectBit now b d) (collectBit now b e) := by
  have hlast : d.bitCount + 1#5 = frameBits d.expectedBits ↔ e.bitCount + 1#5 = frameBits e.expectedBits := by
    rw [h.bitCount, h.width hcol]
  have hshift := unobserved_shiftIn h b
  rcases collectBit_cases now b d with ⟨hd, hd'⟩ | ⟨hd, hd'⟩ <;>
    rcases collectBit_cases now b e with ⟨he, he'⟩ | ⟨he, he'⟩
  · rw [hd', he']; exact ⟨rfl, .inr hshift⟩
  · exact absurd (hlast.2 he) hd
  · exact absurd (hlast.1 hd) he
  · rw [hd', he', completeFrame_eq_of_unobserved hshift now hcol]; exact ⟨rfl, .inl rfl⟩

theorem sameOutcome_bitRules (c : Config) (r : Record) (now : Nat) :
    SameOutcome (bitRules c r now d) (bitRules c r now e) := by
  unfold bitRules
  rw [← h.control]
  split
  · exact ⟨rfl, .inr h⟩
  · next hcol =>
    split
    · exact ⟨rfl, .inr h⟩
    · exact sameOutcome_collectBit h now _ hcol

theorem sameOutcome_startRules (c : Config) (r : Record) (now : Nat) :
    SameOutcome (startRules c r now d) (startRules c r now e) := by
  unfold startRules
  split
  · split
    · exact sameOutcome_bitRules (unobserved_startFrame h) c r now
    · exact ⟨rfl, .inr (unobserved_startFrame h)⟩
  · exact sameOutcome_bitRules h c r now

theorem sameOutcome_pulseStep (c : Config) (r : Record) (now : Nat) :
    SameOutcome (pulseStep c r now d) (pulseStep c r now e) := by
  have hidle := unobserved_idleCheck h c now
  simp only [pulseStep, ← hidle.control]
  split
  · split
    · exact sameOutcome_startRules (unobserved_setPreamble hidle) c r now
    · exact ⟨rfl, .inr (unobserved_setPreamble hidle)⟩
  · exact sameOutcome_startRules hidle c r now

end Unobserved

/-- What is not observed of the first state reaches no result of a run. -/
theorem runPulses_snd_eq_of_unobserved (c : Config) (ps : List (Record × Nat)) {d e : Decoder}
    (h : Unobserved d e) : (runPulses c ps d).2 = (runPulses c ps e).2 := by
  induction ps generalizing d e with
  | nil => rfl
  | cons p ps ih =>
    obtain ⟨r, now⟩ := p
    obtain ⟨hres, heq | hnext⟩ := sameOutcome_pulseStep h c r now
    · rw [runPulses_cons, runPulses_cons, hres, heq]
    · rw [runPulses_cons, runPulses_cons, hres, ih hnext]

/-- Settles O36: after reset the decoder seeks with both flags clear. -/
theorem resetWidthAndTimeUnobservable : Obligations.ResetWidthAndTimeUnobservable := by
  intro c ps e t
  refine runPulses_snd_eq_of_unobserved c ps
    ⟨rfl, fun hcol => ?_, rfl, rfl, rfl, ⟨rfl, rfl⟩, ⟨rfl, rfl⟩⟩
  cases hcol

end Sys2Proof.Proofs
end

section
/-!
PROOFS. Whole frames (41_decoder.md R124 to R133, 20_memory.md R51), and runs of records that begin none.
-/

namespace Sys2Proof.Proofs

open Sys2Proof.Machine Sys2Proof.Laws Sys2Proof.Safety

/-- No record of the run comes later than the idle window after the time stamp. -/
def noneLate (c : Config) (last : Nat) (ps : List (Record × Nat)) : Bool :=
  ps.all fun p => decide (elapsed c p.2 last ≤ c.idleWindow)

/-- A record is late exactly when its step is a boundary step. -/
theorem not_isBoundary_eq (c : Config) (now : Nat) (d : Decoder) :
    (!isBoundary c now d) = decide (elapsed c now d.lastActivity ≤ c.idleWindow) := by
  simp only [isBoundary, ← Nat.not_lt, decide_not]

/-- The first record, and the others from the same time stamp. -/
theorem noneLate_cons (c : Config) (r : Record) (now : Nat) (ps : List (Record × Nat)) (d : Decoder) :
    noneLate c d.lastActivity ((r, now) :: ps) = (!isBoundary c now d && noneLate c d.lastActivity ps) := by
  rw [not_isBoundary_eq, noneLate, List.all_cons, noneLate]

/-- The idle check, written as what it leaves. -/
theorem idleCheck_eq_kept (c : Config) (now : Nat) (d : Decoder) :
    idleCheck c now d =
      { d with gotByte := d.gotByte && !isBoundary c now d, gotWord := d.gotWord && !isBoundary c now d } := by
  rw [idleCheck]
  cases isBoundary c now d <;> simp

/-! ## Records that begin no frame -/

/-- Seeking, a run of records that are neither preamble nor start records is a run of idle checks. -/
theorem runPulses_of_neither (c : Config) (ps : List (Record × Nat)) (d : Decoder)
    (hseek : d.control = .seekingStart)
    (hps : ∀ p ∈ ps, preRec c p.1 = false ∧ startRec c p.1 = false) :
    runPulses c ps d =
      ({ d with
          gotByte := d.gotByte && noneLate c d.lastActivity ps
          gotWord := d.gotWord && noneLate c d.lastActivity ps }, []) := by
  induction ps generalizing d with
  | nil => simp [runPulses_nil, noneLate]
  | cons p ps ih =>
    obtain ⟨r, now⟩ := p
    obtain ⟨⟨hpre, hstart⟩, hrest⟩ := List.forall_mem_cons.1 hps
    rw [runPulses_cons_of_silent (pulseStep_of_neither hseek hpre hstart), ih _ (by simpa using hseek) hrest,
      idleCheck_eq_kept, noneLate_cons]
    simp only [Bool.and_assoc]

/-! ## The frame being collected -/

/-- The decoder in the middle of a frame of width `e`: `k` bits collected, of value `n`. -/
def midFrame (e : FrameWidth) (k n : Nat) (gb gw : Bool) (last : Nat) : Decoder :=
  { control := .collectingBits, expectedBits := e, value := BitVec.ofNat 16 n, bitCount := BitVec.ofNat 5 k,
    sawPreamble := false, gotByte := gb, gotWord := gw, lastActivity := last }

/-- The decoder after a frame of width `e` completed at time `now`, with the flags as the idle checks left
them. -/
def afterFrame (e : FrameWidth) (gb gw : Bool) (now : Nat) : Decoder :=
  { control := .seekingStart, expectedBits := e, value := 0#16, bitCount := 0#5, sawPreamble := false,
    gotByte := decide (e = .bits8) || gb, gotWord := gw || (decide (e = .bits16) && gb), lastActivity := now }

/-- A start begins a frame. -/
theorem startFrame_eq_midFrame (d : Decoder) :
    startFrame d = midFrame (if d.sawPreamble then .bits16 else .bits8) 0 0 d.gotByte d.gotWord d.lastActivity :=
  rfl

/-- No frame has more than 16 bits. -/
theorem frameBits_le (e : FrameWidth) : (frameBits e).toNat ≤ 16 := by
  cases e <;> decide

section MidFrame

variable {c : Config} {r : Record} {now k n last : Nat} {e : FrameWidth} {gb gw : Bool} {ld : Nat}

/-- The next bit is the last one exactly when the count says so. -/
theorem midFrame_last_iff (hk : k < 16) :
    (midFrame e k n gb gw last).bitCount + 1#5 = frameBits (midFrame e k n gb gw last).expectedBits ↔
      k + 1 = (frameBits e).toNat := by
  simp only [midFrame, ← BitVec.toNat_inj, BitVec.toNat_add, BitVec.toNat_ofNat]
  omega

/-- A bit shifted in, on the numbers. -/
theorem shiftIn_midFrame (b : Bool) :
    shiftIn b (midFrame e k n gb gw last) = midFrame e (k + 1) (2 * n + b.toNat) gb gw last := by
  have hvalue := shiftIn_value_eq b (midFrame e k n gb gw last)
  have hmod : BitVec.ofNat 16 (2 * (BitVec.ofNat 16 n).toNat + b.toNat) = BitVec.ofNat 16 (2 * n + b.toNat) :=
    BitVec.eq_of_toNat_eq (by simp [Nat.add_mod, Nat.mul_mod])
  have hcount : BitVec.ofNat 5 k + 1#5 = BitVec.ofNat 5 (k + 1) := by rw [BitVec.ofNat_add]
  calc shiftIn b (midFrame e k n gb gw last)
      = { midFrame e k n gb gw last with
          value := (shiftIn b (midFrame e k n gb gw last)).value
          bitCount := BitVec.ofNat 5 k + 1#5 } := rfl
    _ = _ := by rw [hvalue, hcount, midFrame, hmod]; rfl

/-- The idle check in the middle of a frame. -/
theorem idleCheck_midFrame :
    idleCheck c now (midFrame e k n gb gw last) =
      midFrame e k n (gb && decide (elapsed c now last ≤ c.idleWindow))
        (gw && decide (elapsed c now last ≤ c.idleWindow)) last := by
  rw [idleCheck_eq_kept, not_isBoundary_eq]
  rfl

/-- A bit record before the last one. -/
theorem pulseStep_midFrame_early (hstart : startRec c r = false) (hlow : lowHalf r = some ld)
    (hroom : k + 1 < (frameBits e).toNat) :
    pulseStep c r now (midFrame e k n gb gw last) =
      (midFrame e (k + 1) (2 * n + (bitOf c ld).toNat) (gb && decide (elapsed c now last ≤ c.idleWindow))
        (gw && decide (elapsed c now last ≤ c.idleWindow)) last, none) := by
  have hwidth := frameBits_le e
  have hearly : ¬ k + 1 = (frameBits e).toNat := by omega
  rw [pulseStep_of_earlyBit rfl hstart hlow (mt (midFrame_last_iff (by omega)).1 hearly), idleCheck_midFrame,
    shiftIn_midFrame]

/-- The last bit record. -/
theorem pulseStep_midFrame_last (hstart : startRec c r = false) (hlow : lowHalf r = some ld)
    (hlast : k + 1 = (frameBits e).toNat) :
    pulseStep c r now (midFrame e k n gb gw last) =
      (afterFrame e (gb && decide (elapsed c now last ≤ c.idleWindow))
        (gw && decide (elapsed c now last ≤ c.idleWindow)) now,
       reported e (BitVec.ofNat 16 (2 * n + (bitOf c ld).toNat))
        (gb && decide (elapsed c now last ≤ c.idleWindow))
        (gw && decide (elapsed c now last ≤ c.idleWindow))) := by
  have hwidth := frameBits_le e
  rw [pulseStep_of_lastBit rfl hstart hlow ((midFrame_last_iff (by omega)).2 hlast), idleCheck_midFrame,
    shiftIn_midFrame, completeFrame_eq]
  rfl

end MidFrame

/-- A bit record has a low half, and is no start. -/
theorem bitRecord_of_allBitRecords {c : Config} {r : Record} {now : Nat} {ps : List (Record × Nat)}
    (h : allBitRecords c ((r, now) :: ps)) :
    startRec c r = false ∧ (∃ ld, lowHalf r = some ld) ∧ allBitRecords c ps := by
  obtain ⟨⟨hstart, hlevel⟩, hrest⟩ := List.forall_mem_cons.1 h
  refine ⟨hstart, Option.ne_none_iff_exists'.1 fun hnone => ?_, hrest⟩
  obtain ⟨hhigh0, hhigh1⟩ := (lowHalf_eq_none_iff r).1 hnone
  simp [hhigh0, hhigh1] at hlevel

/-- One more bit of a run. -/
theorem bitsOf_cons {c : Config} {r : Record} {ld : Nat} (hlow : lowHalf r = some ld) (now : Nat)
    (ps : List (Record × Nat)) : bitsOf c ((r, now) :: ps) = bitOf c ld :: bitsOf c ps := by
  simp [bitsOf, hlow]

/-- The value of bits after a number, the first one most significant (20_memory.md R51). -/
def appendBits (n : Nat) (bits : List Bool) : Nat := bits.foldl (fun n b => 2 * n + b.toNat) n

/-- The rest of a frame: the bit records up to its last one, at any times. -/
theorem runPulses_midFrame (c : Config) (e : FrameWidth) (last : Nat) (ps : List (Record × Nat)) (hne : ps ≠ [])
    (k n : Nat) (gb gw : Bool) (hbits : allBitRecords c ps) (hlen : k + ps.length = (frameBits e).toNat) :
    runPulses c ps (midFrame e k n gb gw last) =
      (afterFrame e (gb && noneLate c last ps) (gw && noneLate c last ps) (ps.getLast hne).2,
       (reported e (BitVec.ofNat 16 (appendBits n (bitsOf c ps))) (gb && noneLate c last ps)
        (gw && noneLate c last ps)).toList) := by
  induction ps generalizing k n gb gw with
  | nil => exact absurd rfl hne
  | cons p ps ih =>
    obtain ⟨r, now⟩ := p
    obtain ⟨hstart, ⟨ld, hlow⟩, hrest⟩ := bitRecord_of_allBitRecords hbits
    rw [bitsOf_cons hlow]
    rw [List.length_cons] at hlen
    cases ps with
    | nil =>
      rw [runPulses_cons, pulseStep_midFrame_last hstart hlow hlen, runPulses_nil]
      simp [noneLate, appendBits, bitsOf]
    | cons q qs =>
      rw [List.length_cons] at hlen
      rw [runPulses_cons_of_silent (pulseStep_midFrame_early hstart hlow (by omega)),
        ih (by simp) _ _ _ _ hrest (by rw [List.length_cons]; omega)]
      simp [noneLate, appendBits, Bool.and_assoc]

/-- Within a transaction no record of the rest of a frame comes late: each is measured from the same time
stamp. -/
theorem noneLate_of_withinTransaction (c : Config) (e : FrameWidth) (last : Nat) (ps : List (Record × Nat))
    (k n : Nat) (gb gw : Bool) (hbits : allBitRecords c ps) (hlen : k + ps.length = (frameBits e).toNat)
    (hwithin : withinTransaction c ps (midFrame e k n gb gw last)) : noneLate c last ps = true := by
  induction ps generalizing k n gb gw with
  | nil => rfl
  | cons p ps ih =>
    obtain ⟨r, now⟩ := p
    obtain ⟨hstart, ⟨ld, hlow⟩, hrest⟩ := bitRecord_of_allBitRecords hbits
    obtain ⟨hnow, hwithin⟩ := hwithin
    have hhead := noneLate_cons c r now ps (midFrame e k n gb gw last)
    rw [hnow] at hhead
    refine hhead.trans ?_
    rw [List.length_cons] at hlen
    cases ps with
    | nil => rfl
    | cons q qs =>
      rw [List.length_cons] at hlen
      rw [pulseStep_midFrame_early hstart hlow (by omega)] at hwithin
      exact ih _ _ _ _ hrest (by rw [List.length_cons]; omega) hwithin

/-! ## Whole frames -/

section Frames

variable {c : Config} {r : Record} {now : Nat} {d : Decoder}

/-- Seeking, a start record that is no preamble record begins a frame, its own low half no bit without
START_FALLTHROUGH (R125, R126). -/
theorem pulseStep_of_start (hsf : c.startFallthrough = false) (hseek : d.control = .seekingStart)
    (hstart : startRec c r = true) (hpre : preRec c r = false) :
    pulseStep c r now d = (startFrame (idleCheck c now d), none) := by
  simp [pulseStep, startRules, hsf, hseek, hstart, hpre]

/-- A start record and the bit records of its frame, from a seeking decoder: the whole frame's outcome. -/
theorem runPulses_frame {ps : List (Record × Nat)} (e : FrameWidth) (hne : ps ≠ [])
    (hsf : c.startFallthrough = false) (hseek : d.control = .seekingStart)
    (hstart : startRec c r = true) (hpre : preRec c r = false)
    (hwidth : (if d.sawPreamble then .bits16 else .bits8) = e)
    (hbits : allBitRecords c ps) (hlen : ps.length = (frameBits e).toNat) :
    runPulses c ((r, now) :: ps) d =
      (afterFrame e (d.gotByte && noneLate c d.lastActivity ((r, now) :: ps))
        (d.gotWord && noneLate c d.lastActivity ((r, now) :: ps)) (ps.getLast hne).2,
       (reported e (BitVec.ofNat 16 (msbFirst (bitsOf c ps)))
        (d.gotByte && noneLate c d.lastActivity ((r, now) :: ps))
        (d.gotWord && noneLate c d.lastActivity ((r, now) :: ps))).toList) := by
  rw [runPulses_cons_of_silent (pulseStep_of_start hsf hseek hstart hpre), startFrame_eq_midFrame,
    runPulses_midFrame c _ _ ps hne 0 0 _ _ hbits (by simpa [hwidth] using hlen)]
  simp only [idleCheck_sawPreamble, idleCheck_gotByte, idleCheck_gotWord, idleCheck_lastActivity, hwidth,
    noneLate_cons, Bool.and_assoc]
  rfl

end Frames

/-- Settles O34: the frame of a clear preamble flag is a byte frame, and a clear byte flag stays clear. -/
theorem byteFrameIsReported : Obligations.ByteFrameIsReported := by
  intro c start t0 tn lastRec init d hsf hstart hpre hseek hsaw hgot hlen hbits
  have hrun := runPulses_frame (now := t0) .bits8 (List.append_ne_nil_of_right_ne_nil init (by simp)) hsf hseek
    hstart hpre (by simp [hsaw]) hbits (by simp [hlen, frameBits])
  rw [hrun, hgot]
  refine ⟨?result, rfl, rfl, ?stamp⟩
  case result => simp [reported, BitVec.setWidth_ofNat_of_le]
  case stamp => simp [afterFrame]

/-- Settles O35: the preamble makes the frame a word frame; within a transaction the flags reach its last bit as
they were, and a clear byte flag does so always. -/
theorem wordFrameNeedsByte : Obligations.WordFrameNeedsByte := by
  intro c pream start tp t0 bits d hsf hpream hnoStart hstart hpre hseek hlen hbits
  have hne : bits ≠ [] := by rintro rfl; simp at hlen
  have hpreamble : pulseStep c pream tp d = (setPreamble (idleCheck c tp d), none) :=
    pulseStep_of_preamble hseek hpream (.inr hnoStart)
  have hseek' : (setPreamble (idleCheck c tp d)).control = .seekingStart := by simpa using hseek
  have hrun := runPulses_frame (now := t0) .bits16 hne hsf hseek' hstart hpre (by simp) hbits hlen
  rw [runPulses_cons_of_silent hpreamble, hrun]
  refine ⟨fun hbyte hword hwithin => ?word, fun hbyte => ?silent⟩
  case word =>
    obtain ⟨hp, hwithin⟩ := hwithin
    rw [hpreamble] at hwithin
    obtain ⟨h0, hwithin⟩ := hwithin
    rw [pulseStep_of_start hsf hseek' hstart hpre, startFrame_eq_midFrame] at hwithin
    have hframe := noneLate_of_withinTransaction c _ _ bits 0 0 _ _ hbits (by simpa [frameBits] using hlen) hwithin
    have hkept : noneLate c (setPreamble (idleCheck c tp d)).lastActivity ((start, t0) :: bits) = true := by
      rw [noneLate_cons, h0]
      simpa using hframe
    rw [hkept]
    simp [hbyte, hword, hp, reported]
  case silent => simp [hbyte, reported]

end Sys2Proof.Proofs
end

section
/-!
PROOFS. The machine with its ports against the decoder on a list of records (00_scope.md R2, 20_memory.md R57).
-/

namespace Sys2Proof.Proofs

open Sys2Proof.Machine Sys2Proof.Laws Sys2Proof.Safety

/-- The machine and the decoder stand at the same point of a run of records: nothing is held at the result port,
the records wait, and their turns come next, each with the consumer's after it. -/
structure ReadyFor (ps : List (Record × Nat)) (rest : List Offer) (ts : List Turn) (s : State) : Prop where
  widths : ∀ p ∈ ps, p.1.wellFormed s.config.durW = true ∧ p.2 < 2 ^ s.config.tsW
  ready : s.resPending = none
  ops : s.ops = pulseOffers s.config.durW ps ++ rest
  turns : s.turns = promptTurns ps ++ ts

/-- The state after a record's turn and the consumer's: the decoder stepped, its result taken, its batch
released. -/
def afterTaken (s : State) (r : Record) (now : Nat) (ops : List Offer) (ts : List Turn) : State :=
  { s with
    dec := (pulseStep s.config r now s.dec).1
    resPending := none
    batchOpen := false
    pinNow := now
    pinLast := true
    ops := ops
    turns := ts
    results := s.results ++ (pulseStep s.config r now s.dec).2.toList
    releases := s.releases + 1 }

/-- The number of a PULSE word decodes to its record. -/
theorem decodeNumber_encode_pulse {durW : Nat} {r : Record} (hr : r.wellFormed durW = true) :
    decodeNumber durW (encode durW (.pulse r)).toNat = some (.pulse r) := by
  rw [decodeNumber, BitVec.ofNat_toNat, BitVec.setWidth_eq, decode_encode_pulse hr]

section Prompt

variable {r : Record} {now : Nat} {ps : List (Record × Nat)} {rest : List Offer} {ts : List Turn} {s : State}

/-- The first record's turn, and the consumer's after it. -/
theorem steps_of_readyFor (h : ReadyFor ((r, now) :: ps) rest ts s) :
    ∃ m, step s = .next m ∧
      step m = .next (afterTaken s r now (pulseOffers s.config.durW ps ++ rest) (promptTurns ps ++ ts)) := by
  obtain ⟨hwidths, hready, hops, hturns⟩ := h
  obtain ⟨hr, hnow⟩ := hwidths (r, now) List.mem_cons_self
  refine ⟨_, (step_operation hturns hops (decodeNumber_encode_pulse hr)).trans
      (exec_pulse_ready (by exact hready)), (step_consumer (ts := promptTurns ps ++ ts) rfl).trans ?_⟩
  rw [takeResult_eq]
  simp [afterTaken, afterRecord, present, hops, pulseOffers, Nat.mod_eq_of_lt hnow]

/-- Two steps take the first record and its result. -/
theorem run_two_of_readyFor (h : ReadyFor ((r, now) :: ps) rest ts s) (n : Nat) :
    Host.Core.run Sys2Proof.core (n + 2) s =
      Host.Core.run Sys2Proof.core n
        (afterTaken s r now (pulseOffers s.config.durW ps ++ rest) (promptTurns ps ++ ts)) := by
  obtain ⟨m, hrecord, hconsumer⟩ := steps_of_readyFor h
  rw [run_next (n + 1) s m hrecord, run_next n m _ hconsumer]

/-- The machine is then ready for the next record. -/
theorem readyFor_afterTaken (h : ReadyFor ((r, now) :: ps) rest ts s) :
    ReadyFor ps rest ts (afterTaken s r now (pulseOffers s.config.durW ps ++ rest) (promptTurns ps ++ ts)) :=
  ⟨fun p hp => h.widths p (List.mem_cons_of_mem _ hp), rfl, rfl, rfl⟩

end Prompt

/-- Settles O37, by induction on the records: two steps for each. -/
theorem portsRefineTransactions : Obligations.PortsRefineTransactions := by
  intro ps rest ts s hwidths hready hops hturns
  have hs : ReadyFor ps rest ts s := ⟨hwidths, hready, hops, hturns⟩
  clear hwidths hready hops hturns
  induction ps generalizing s with
  | nil =>
    exact ⟨s, rfl, rfl, by simp [runPulses_nil], hs.ready, hs.ops, hs.turns, rfl, rfl, rfl, rfl⟩
  | cons p ps ih =>
    obtain ⟨r, now⟩ := p
    obtain ⟨t, hrun, hdec, hresults, hres, hops, hturns, hreleases, hrest⟩ := ih _ (readyFor_afterTaken hs)
    refine ⟨t, (run_two_of_readyFor hs _).trans hrun, hdec, ?results, hres, hops, hturns, ?releases, hrest⟩
    case results => rw [hresults, runPulses_cons, ← List.append_assoc]; rfl
    case releases => rw [hreleases, List.length_cons, Nat.add_comm ps.length, ← Nat.add_assoc]; rfl

end Sys2Proof.Proofs
end

section
/-!
PROOFS. The encoder's sequence for every configuration (42_encoder.md R171 to R174): its records, their durations,
and the bits they classify back to.
-/

namespace Sys2Proof.Proofs

open Sys2Proof.Machine Sys2Proof.Laws Sys2Proof.Safety

/-! ## One record of the sequence -/

/-- The low duration of a bit (42_encoder.md R171). -/
def lowOfBit (c : Config) (b : Bool) : Nat := if b then c.bit1Low else c.bit0Low

/-- A bit record, both its durations as they are sent. -/
theorem bitRecord_eq (c : Config) (b : Bool) :
    bitRecord c b =
      { half0 := { level := .low, dur := sentDuration c (lowOfBit c b) },
        half1 := { level := .high, dur := sentDuration c ((c.bitPeriod : Int) - lowOfBit c b) } } := by
  cases b <;> rfl

/-- The low duration of bit `i` of a value, by arithmetic. -/
theorem lowOfBit_getLsbD (c : Config) (v : Byte) (i : Nat) :
    lowOfBit c (v.getLsbD i) = if v.toNat / 2 ^ i % 2 = 1 then c.bit1Low else c.bit0Low := by
  simp only [lowOfBit, getLsbD_iff_div_mod]

/-- A low duration that is a part of the period leaves a difference that is sent as it is, if it fits. -/
theorem sentDuration_sub_of_lt {c : Config} {a b : Nat} (hle : b ≤ a) (hfit : a - b < 2 ^ c.durW) :
    sentDuration c ((a : Int) - b) = a - b := by
  rw [← Int.ofNat_sub hle, sentDuration_of_lt c (a - b) hfit]

theorem bitRecord_wellFormed (c : Config) (b : Bool) : (bitRecord c b).wellFormed c.durW = true := by
  simp [bitRecord, Record.wellFormed, sentDuration_lt]

theorem syncRecord_wellFormed (c : Config) (d : Nat) : (syncRecord c d).wellFormed c.durW = true := by
  simp [syncRecord, Record.wellFormed, sentDuration_lt]

/-- Every record of the sequence is a synchronization record or a bit record. -/
theorem mem_encodeSeq {c : Config} {v : Byte} {r : Record} (h : r ∈ encodeSeq c v) :
    r = syncRecord c c.sync1 ∨ r = syncRecord c c.sync2 ∨ ∃ b, r = bitRecord c b := by
  rw [encodeSeq, List.mem_cons, List.mem_cons, List.mem_map] at h
  obtain h | h | ⟨i, -, h⟩ := h
  · exact .inl h
  · exact .inr (.inl h)
  · exact .inr (.inr ⟨_, h.symm⟩)

/-- Record `k + 2` carries bit `7 - k`. -/
theorem encodeSeq_getElem? {c : Config} {v : Byte} {k : Nat} (hk : k < 8) :
    (encodeSeq c v)[k + 2]? = some (bitRecord c (v.getLsbD (7 - k))) := by
  simp [encodeSeq_eq_range, hk]

/-- Settles O39: the sequence is `Encode(V)`, and each of its durations is sent under its own condition. -/
theorem encodeCompletesForEveryConfig : Obligations.EncodeCompletesForEveryConfig := by
  intro v s hfree
  refine ⟨encodeSeq s.config v, exec_encode_ready hfree, rfl, rfl, rfl, fun r hr => ?widths,
    fun hfit r hr => ?sync1, fun hfit r hr => ?sync2, fun k r hk hr => ?bits⟩
  case widths =>
    obtain rfl | rfl | ⟨b, rfl⟩ := mem_encodeSeq hr
    · exact syncRecord_wellFormed _ _
    · exact syncRecord_wellFormed _ _
    · exact bitRecord_wellFormed _ b
  case sync1 =>
    obtain rfl : r = syncRecord s.config s.config.sync1 := List.mem_singleton.1 hr
    rw [syncRecord_of_lt hfit]
    exact ⟨rfl, rfl⟩
  case sync2 =>
    obtain rfl : r = syncRecord s.config s.config.sync2 := List.mem_singleton.1 hr
    rw [syncRecord_of_lt hfit]
    exact ⟨rfl, rfl⟩
  case bits =>
    rw [encodeSeq_getElem? hk, Option.some.injEq] at hr
    rw [← hr, bitRecord_eq, ← lowOfBit_getLsbD]
    exact ⟨sentDuration_of_lt s.config _, sentDuration_sub_of_lt⟩

/-! ## Length and duration (R173) -/

/-- What 40_classifier.md R101 (b) says of both low durations. -/
theorem lowOfBit_le_of_bitsOrdered {c : Config} (h : c.bitsOrdered = true) (b : Bool) :
    lowOfBit c b ≤ c.bitPeriod ∧ (lowOfBit c b < c.bitThreshold ↔ b = true) := by
  simp only [Config.bitsOrdered, Bool.and_eq_true, decide_eq_true_eq] at h
  obtain ⟨⟨hone, hzero⟩, hperiod⟩ := h
  cases b <;> simp [lowOfBit] <;> omega

/-- What 40_classifier.md R101 (a) says of the constants the encoder sends. -/
theorem sent_lt_of_constantsFit {c : Config} (h : c.constantsFit = true) :
    c.sync1 < 2 ^ c.durW ∧ c.sync2 < 2 ^ c.durW ∧ c.bitPeriod < 2 ^ c.durW := by
  simp only [Config.constantsFit, Bool.and_eq_true, List.all_eq_true, decide_eq_true_eq] at h
  obtain ⟨hdurations, -⟩ := h
  exact ⟨hdurations _ (by simp), hdurations _ (by simp), hdurations _ (by simp)⟩

/-- Under (b), and a period that fits, the durations of a bit record are the exact ones. -/
theorem bitRecord_of_bitsOrdered {c : Config} (hbits : c.bitsOrdered = true) (hfit : c.bitPeriod < 2 ^ c.durW)
    (b : Bool) :
    bitRecord c b =
      { half0 := { level := .low, dur := lowOfBit c b },
        half1 := { level := .high, dur := c.bitPeriod - lowOfBit c b } } :=
  bitRecord_of_le rfl (lowOfBit_le_of_bitsOrdered hbits b).1 hfit

/-- A bit record lasts the bit period, whatever its bit. -/
theorem bitRecord_duration {c : Config} (hbits : c.bitsOrdered = true) (hfit : c.bitPeriod < 2 ^ c.durW)
    (b : Bool) : (bitRecord c b).half0.dur + (bitRecord c b).half1.dur = c.bitPeriod := by
  obtain ⟨hle, -⟩ := lowOfBit_le_of_bitsOrdered hbits b
  rw [bitRecord_of_bitsOrdered hbits hfit]
  exact Nat.add_sub_cancel' hle

/-- The total duration of `Encode(V)` under 40_classifier.md R101 (a) and (b). -/
theorem totalDuration_encodeSeq (c : Config) (v : Byte) (hfits : c.constantsFit = true)
    (hbits : c.bitsOrdered = true) :
    totalDuration (encodeSeq c v) = 2 * c.sync1 + 2 * c.sync2 + 8 * c.bitPeriod := by
  obtain ⟨hsync1, hsync2, hperiod⟩ := sent_lt_of_constantsFit hfits
  have heach (i : Nat) := bitRecord_duration hbits hperiod (v.getLsbD i)
  simp only [totalDuration, encodeSeq, syncRecord_of_lt hsync1, syncRecord_of_lt hsync2, List.map_cons,
    List.map_nil, heach, List.sum_cons, List.sum_nil]
  omega

/-- Settles O41; the defaults meet the constraints. -/
theorem encodedLengthAndDuration : Obligations.EncodedLengthAndDuration :=
  ⟨fun _ _ => rfl, totalDuration_encodeSeq,
    fun v => totalDuration_encodeSeq defaultConfig v (by decide) (by decide)⟩

/-! ## The bits read back (R174) -/

/-- One more bit at the end is one more digit. -/
theorem msbFirst_append_singleton (bits : List Bool) (b : Bool) :
    msbFirst (bits ++ [b]) = 2 * msbFirst bits + b.toNat := by
  simp [msbFirst]

/-- The low `k` bits of a number, its bit `k - 1` first, read back as the number modulo `2^k` (20_memory.md R51,
R52). -/
theorem msbFirst_range (k n : Nat) :
    msbFirst ((List.range k).map fun i => decide (n / 2 ^ (k - 1 - i) % 2 = 1)) = n % 2 ^ k := by
  induction k generalizing n with
  | zero => simp [msbFirst, Nat.mod_one]
  | succ k ih =>
    have hhigh : ((List.range k).map fun i => decide (n / 2 ^ (k + 1 - 1 - i) % 2 = 1)) =
        (List.range k).map fun i => decide (n / 2 / 2 ^ (k - 1 - i) % 2 = 1) := by
      refine List.map_congr_left fun i hi => ?_
      rw [List.mem_range] at hi
      rw [Nat.div_div_eq_div_mul, ← Nat.pow_succ', show k + 1 - 1 - i = (k - 1 - i).succ by omega]
    have hlast : (decide (n / 2 ^ (k + 1 - 1 - k) % 2 = 1)).toNat = n % 2 := by
      rw [Nat.add_sub_cancel, Nat.sub_self, Nat.pow_zero, Nat.div_one]
      rcases Nat.mod_two_eq_zero_or_one n with h | h <;> simp [h]
    rw [List.range_succ, List.map_append, List.map_singleton, msbFirst_append_singleton, hhigh, ih, hlast,
      Nat.pow_succ', Nat.mod_mul]
    omega

/-- The bits of a byte read back as the byte. -/
theorem msbFirst_byteBits (v : Byte) : msbFirst (byteBits v) = v.toNat := by
  rw [byteBits_eq_range]
  exact (msbFirst_range 8 v.toNat).trans (Nat.mod_eq_of_lt v.isLt)

section ReadBack

variable {c : Config} (hbits : c.bitsOrdered = true) (hfit : c.bitPeriod < 2 ^ c.durW)
include hbits hfit

/-- The low half of a bit record is its bit's low duration. -/
theorem lowHalf_bitRecord (b : Bool) : lowHalf (bitRecord c b) = some (lowOfBit c b) := by
  rw [bitRecord_of_bitsOrdered hbits hfit]
  rfl

/-- No bit record is a start record, when (e) keeps its high half out of the start window. -/
theorem startRec_bitRecord (hwindow : c.bitsAreNotStarts = true) (b : Bool) :
    startRec c (bitRecord c b) = false := by
  have hout : ¬ (c.startMin + lowOfBit c b < c.bitPeriod ∧ c.bitPeriod < c.startMax + lowOfBit c b) := by
    simp only [Config.bitsAreNotStarts, List.all_cons, List.all_nil, Bool.and_true, Bool.and_eq_true,
      Bool.not_eq_true', ← Bool.decide_and, decide_eq_false_iff_not] at hwindow
    obtain ⟨hone, hzero⟩ := hwindow
    cases b with
    | false => exact hzero
    | true => exact hone
  obtain ⟨hle, -⟩ := lowOfBit_le_of_bitsOrdered hbits b
  rw [← Bool.not_eq_true, startRec_iff, isStart_iff, isStart_iff, bitRecord_of_bitsOrdered hbits hfit]
  rintro (⟨hlow, -⟩ | ⟨-, hmin, hmax⟩)
  · cases hlow
  · simp only at hmin hmax
    omega

end ReadBack

/-- The classified bit of a low duration is the bit it stands for. -/
theorem bitOf_lowOfBit {c : Config} (hbits : c.bitsOrdered = true) (b : Bool) : bitOf c (lowOfBit c b) = b := by
  obtain ⟨-, hbelow⟩ := lowOfBit_le_of_bitsOrdered hbits b
  rw [Bool.eq_iff_iff, bitOf_iff, hbelow]

/-- The bits of a run of the encoder's bit records are the bits they were made of. -/
theorem bits_of_bitRecords {c : Config} (hbits : c.bitsOrdered = true) (hfit : c.bitPeriod < 2 ^ c.durW)
    (bs : List Bool) : ((bs.map (bitRecord c)).filterMap lowHalf).map (bitOf c) = bs := by
  induction bs with
  | nil => rfl
  | cons b bs ih =>
    rw [List.map_cons, List.filterMap_cons_some (lowHalf_bitRecord hbits hfit b), List.map_cons, ih,
      bitOf_lowOfBit hbits]

/-- Behind its synchronization records the sequence is the bit records of the value's bits. -/
theorem encodeSeq_drop_two (c : Config) (v : Byte) : (encodeSeq c v).drop 2 = (byteBits v).map (bitRecord c) := rfl

/-- Settles O42: record by record, the low half classifies to the record's bit and the high half is no start. -/
theorem encodedBitsReadBack : Obligations.EncodedBitsReadBack := by
  intro c v hbits hwindow hfit
  rw [encodeSeq_drop_two]
  refine ⟨bits_of_bitRecords hbits hfit _, msbFirst_byteBits v, fun r hr => ?_⟩
  obtain ⟨b, -, rfl⟩ := List.mem_map.1 hr
  exact startRec_bitRecord hbits hfit hwindow b

end Sys2Proof.Proofs
end

section
/-!
PROOFS. The encoder's records at the decoder (42_encoder.md R176, 95_test_vectors.md section 4): fed directly they
report nothing, through the channel model their byte.
-/

namespace Sys2Proof.Proofs

open Sys2Proof.Machine Sys2Proof.Laws Sys2Proof.Safety

/-! ## Fed directly -/

/-- At the defaults a bit record is neither a preamble nor a start record. -/
theorem bitRecord_isNeither (b : Bool) :
    preRec defaultConfig (bitRecord defaultConfig b) = false ∧
      startRec defaultConfig (bitRecord defaultConfig b) = false := by
  cases b <;> decide

/-- At the defaults no record of the sequence begins anything. -/
theorem encodeSeq_isNeither {v : Byte} {r : Record} (h : r ∈ encodeSeq defaultConfig v) :
    preRec defaultConfig r = false ∧ startRec defaultConfig r = false := by
  obtain rfl | rfl | ⟨b, rfl⟩ := mem_encodeSeq h
  · decide
  · decide
  · exact bitRecord_isNeither b

/-- Settles O43: the run is a run of idle checks. -/
theorem directFeedReportsNothing : Obligations.DirectFeedReportsNothing := by
  intro v ps d hps hseek
  have hneither : ∀ p ∈ ps, preRec defaultConfig p.1 = false ∧ startRec defaultConfig p.1 = false :=
    fun p hp => encodeSeq_isNeither (hps ▸ List.mem_map_of_mem hp)
  rw [runPulses_of_neither defaultConfig ps d hseek hneither]
  exact ⟨rfl, hseek, rfl, rfl⟩

/-! ## Through the channel -/

/-- Records that alternate `L` and `H` halves stay as they are behind an `H` phase. -/
theorem mergePhases_bitRecords {c : Config} {cur : Half} (hcur : cur.level = .high) (bs : List Bool) :
    mergePhases cur (halvesOf (bs.map (bitRecord c))) = cur :: halvesOf (bs.map (bitRecord c)) := by
  induction bs generalizing cur with
  | nil => rfl
  | cons b bs ih =>
    have hhalves : halvesOf ((b :: bs).map (bitRecord c)) =
        (bitRecord c b).half0 :: (bitRecord c b).half1 :: halvesOf (bs.map (bitRecord c)) := rfl
    have hlow : cur.level ≠ (bitRecord c b).half0.level := by rw [hcur]; exact nofun
    have hhigh : (bitRecord c b).half0.level ≠ (bitRecord c b).half1.level := nofun
    rw [hhalves, mergePhases, if_neg hlow, mergePhases, if_neg hhigh, ih rfl]

/-- Pairing the halves of records gives the records. -/
theorem pairPhases_halvesOf (rs : List Record) : pairPhases (halvesOf rs) = rs := by
  induction rs with
  | nil => rfl
  | cons r rs ih =>
    have hhalves : halvesOf (r :: rs) = r.half0 :: r.half1 :: halvesOf rs := rfl
    rw [hhalves, pairPhases, ih]

/-- What the channel makes of the lead and the synchronization records: one record with the merged high phase. -/
def leadRecord (lead : Nat) : Record :=
  { half0 := { level := .low, dur := lead }, half1 := { level := .high, dur := 30000 } }

/-- The sequence through the channel: the merged record, and the bit records as they were. -/
theorem channel_encodeSeq (v : Byte) (lead : Nat) :
    channel (encodeSeq defaultConfig v) lead =
      leadRecord lead :: (byteBits v).map (bitRecord defaultConfig) := by
  have hmerged : mergePhases { level := .low, dur := lead } (halvesOf (encodeSeq defaultConfig v)) =
      { level := .low, dur := lead } ::
        mergePhases { level := .high, dur := 30000 } (halvesOf ((byteBits v).map (bitRecord defaultConfig))) := rfl
  rw [channel, hmerged, mergePhases_bitRecords rfl, pairPhases, pairPhases_halvesOf, leadRecord]

/-- The merged high phase is a start; the lead is a preamble inside its window. -/
theorem leadRecord_classified (lead : Nat) :
    startRec defaultConfig (leadRecord lead) = true ∧
      preRec defaultConfig (leadRecord lead) = decide (800 < lead ∧ lead < 3000) := by
  refine ⟨(startRec_iff _ _).2 (.inr (isStart_default 30000)), ?_⟩
  have hhigh : isPreamble defaultConfig (leadRecord lead).half1 = false := rfl
  rw [preRec, hhigh, Bool.or_false]
  exact isPreamble_default lead

section Channel

variable (bs : List Bool) (now : Nat)

/-- The encoder's bit records, all at one time. -/
def bitRun : List (Record × Nat) := (bs.map (bitRecord defaultConfig)).map (·, now)

theorem bitsOf_bitRun : bitsOf defaultConfig (bitRun bs now) = bs := by
  rw [bitsOf, bitRun, List.filterMap_map]
  exact bits_of_bitRecords (by decide) (by decide) bs

theorem mem_bitRun {p : Record × Nat} (h : p ∈ bitRun bs now) :
    ∃ b, p = (bitRecord defaultConfig b, now) := by
  obtain ⟨r, hr, rfl⟩ := List.mem_map.1 h
  obtain ⟨b, -, rfl⟩ := List.mem_map.1 hr
  exact ⟨b, rfl⟩

theorem allBitRecords_bitRun : allBitRecords defaultConfig (bitRun bs now) := by
  intro p hp
  obtain ⟨b, rfl⟩ := mem_bitRun bs now hp
  exact ⟨(bitRecord_isNeither b).2, .inl rfl⟩

end Channel

/-- Settles O44: outside the preamble window the merged record is a start and a byte frame follows; inside it the
record is only a preamble, and the bit records that follow are discarded. -/
theorem roundTripThroughChannel : Obligations.RoundTripThroughChannel := by
  intro v lead now
  obtain ⟨hstart, hpre⟩ := leadRecord_classified lead
  have hrun : (channel (encodeSeq defaultConfig v) lead).map (·, now) =
      (leadRecord lead, now) :: bitRun (byteBits v) now := by
    rw [channel_encodeSeq]
    rfl
  rw [hrun]
  refine ⟨fun hlead => ?byte, fun hlead => ?preamble⟩
  case byte =>
    have hnoPre : preRec defaultConfig (leadRecord lead) = false := by
      rw [hpre, decide_eq_false_iff_not]
      omega
    have hne : bitRun (byteBits v) now ≠ [] := nofun
    have hlast : ((bitRun (byteBits v) now).getLast hne).2 = now := by
      obtain ⟨b, hb⟩ := mem_bitRun _ _ (List.getLast_mem hne)
      rw [hb]
    rw [runPulses_frame .bits8 hne rfl rfl hstart hnoPre rfl (allBitRecords_bitRun _ _) rfl, bitsOf_bitRun,
      msbFirst_byteBits, hlast]
    simp [reported, afterFrame, Decoder.reset]
  case preamble =>
    have hpreamble : preRec defaultConfig (leadRecord lead) = true := by
      rw [hpre, decide_eq_true_iff]
      exact hlead
    have hneither : ∀ p ∈ bitRun (byteBits v) now,
        preRec defaultConfig p.1 = false ∧ startRec defaultConfig p.1 = false := by
      intro p hp
      obtain ⟨b, rfl⟩ := mem_bitRun _ _ hp
      exact bitRecord_isNeither b
    rw [runPulses_cons_of_silent (pulseStep_of_preamble rfl hpreamble (.inl rfl)),
      runPulses_of_neither _ _ _ (by simp [Decoder.reset]) hneither, idleCheck_eq_kept]
    rfl

end Sys2Proof.Proofs
end
